-- ==== Sys2Proof/Word.lean ====
section
/-! DEFINITION. The two word widths of the hardware (00_scope.md R7): 8-bit data, 16-bit addresses.
Everything that cuts, widens or joins them stands in Sys2Proof/Machine/Bits.lean. -/

namespace Sys2Proof

/-- A byte: "data width 8 bits" (R7). Its `+` is the spec's `+8` (R10). -/
abbrev Byte := BitVec 8

/-- An address: "address width 16 bits" (R7). Its `+` is the spec's `+16` (R10). -/
abbrev Addr := BitVec 16

end Sys2Proof
end

