-- ==== Sys2Proof/Machine/Bits.lean ====
section
/-! DEFINITION. Widening, joining and splitting of bytes and addresses: the primitives of 00_scope.md
R10 that are not plain arithmetic, and the one byte order of the hardware (20_memory.md R68). -/

namespace Sys2Proof

/-- `zext_16(b)` of R10: "the byte `b` as a `u16` of the same value". -/
def zext16 (b : Byte) : Addr := b.setWidth 16

/-- `sext_16(b)` of R10: "the byte `b` read as two's complement and widened". -/
def sext16 (b : Byte) : Addr := b.signExtend 16

/-- `hi :: lo` of R10: `hi * 256 + lo`. -/
def joinBytes (hi lo : Byte) : Addr := hi ++ lo

/-- Bits 7:0 of an address: its byte at the lower memory address (R68). -/
def lowByte (w : Addr) : Byte := w.extractLsb' 0 8

/-- Bits 15:8 of an address: its byte at the next memory address (R68). -/
def highByte (w : Addr) : Byte := w.extractLsb' 8 8

end Sys2Proof
end

