-- ==== Sys2Proof/Syntax.lean ====
section
/-! DEFINITION. The syntax of profile CORE14: the fourteen operations (00_scope.md R3), the ten
addressing modes (41_addressing_modes.md R151) and one constructor of `Instr` for each of the 47 rows
of spec/opcode_table.json (30_encoding.md R94). -/

namespace Sys2Proof

/-- The fourteen operation identifiers of profile CORE14 (R3, R206). ASL stands for both of its
forms, told apart by the mode. -/
inductive Operation where
  | adc | and | asl | cmp | bit | lda
  | bcc | bcs | beq | bne | bmi | bpl | bvc | bvs
  deriving DecidableEq, Repr

/-- The ten addressing modes (R151). -/
inductive Mode where
  | acc | imm | rel | zp | zpx | abs | absx | absy | indx | indy
  deriving DecidableEq, Repr

/-- One constructor per row of the opcode table, its arguments the operand the row's bytes carry:
the immediate value, the zero-page byte, the 16-bit address or the displacement (R91, R93). -/
inductive Instr where
  -- ADC, R123
  | adcImm (value : Byte) | adcZp (zp : Byte) | adcZpx (zp : Byte)
  | adcAbs (addr : Addr) | adcAbsx (addr : Addr) | adcAbsy (addr : Addr)
  | adcIndx (zp : Byte) | adcIndy (zp : Byte)
  -- AND, R126
  | andImm (value : Byte) | andZp (zp : Byte) | andZpx (zp : Byte)
  | andAbs (addr : Addr) | andAbsx (addr : Addr) | andAbsy (addr : Addr)
  | andIndx (zp : Byte) | andIndy (zp : Byte)
  -- ASL, R127 and R128
  | aslAcc | aslZp (zp : Byte) | aslZpx (zp : Byte) | aslAbs (addr : Addr) | aslAbsx (addr : Addr)
  -- CMP, R129
  | cmpImm (value : Byte) | cmpZp (zp : Byte) | cmpZpx (zp : Byte)
  | cmpAbs (addr : Addr) | cmpAbsx (addr : Addr) | cmpAbsy (addr : Addr)
  | cmpIndx (zp : Byte) | cmpIndy (zp : Byte)
  -- BIT, R130
  | bitZp (zp : Byte) | bitAbs (addr : Addr)
  -- LDA, R131
  | ldaImm (value : Byte) | ldaZp (zp : Byte) | ldaZpx (zp : Byte)
  | ldaAbs (addr : Addr) | ldaAbsx (addr : Addr) | ldaAbsy (addr : Addr)
  | ldaIndx (zp : Byte) | ldaIndy (zp : Byte)
  -- the eight branches, R184 to R191
  | bcc (disp : Byte) | bcs (disp : Byte) | beq (disp : Byte) | bne (disp : Byte)
  | bmi (disp : Byte) | bpl (disp : Byte) | bvc (disp : Byte) | bvs (disp : Byte)
  deriving DecidableEq, Repr

end Sys2Proof
end

