-- ==== Sys2Proof/Config.lean ====
section
/-! DEFINITION. The open parameters of the hardware (00_scope.md R8): DECODE_TABLE and CYCLE_TABLE,
held together as one list of rows, since the source describes one "(opcode byte → operation, addressing
mode, base cycle count) mapping" (10_state.md R44). The default value of both, the 47 rows of R94, is
`Sys2Proof.core14Rows` in Sys2Proof/Decode.lean; which tables are legal is in Sys2Proof/WellFormed.lean.
There is no free value: "Nothing in this spec has treatment `any value`" (93_implementation_defined.md,
end of Part A). -/

namespace Sys2Proof

/-- One row of the opcode table: the DECODE_TABLE entry of a byte and its CYCLE_TABLE entry (R8, R206). -/
structure OpcodeRow where
  opcode    : Byte
  operation : Operation
  mode      : Mode
  cycles    : Nat
  deriving DecidableEq, Repr

/-- A value of the two parameters DECODE_TABLE and CYCLE_TABLE (R8); a byte with no row is unmapped. -/
abbrev OpcodeTable := List OpcodeRow

end Sys2Proof
end

