-- ==== Sys2Proof/WellFormed.lean ====
section
/-! DEFINITION. What is well formed: an instruction (30_encoding.md R96: which modes each operation
has) and a value of the open parameters (92_eei_decisions.md D3: the constraints on a DECODE_TABLE). -/

namespace Sys2Proof

/-- The eight branches (R3). -/
def Operation.isBranch : Operation → Bool
  | .bcc | .bcs | .beq | .bne | .bmi | .bpl | .bvc | .bvs => true
  | .adc | .and | .asl | .cmp | .bit | .lda => false

/-- The modes of each operation: the pairing table of R96, a blank cell being `false`. -/
def Operation.takes : Operation → Mode → Bool
  | .adc, m | .and, m | .cmp, m | .lda, m => m != .acc && m != .rel
  | .asl, m => m == .acc || m == .zp || m == .zpx || m == .abs || m == .absx
  | .bit, m => m == .zp || m == .abs
  | .bcc, m | .bcs, m | .beq, m | .bne, m | .bmi, m | .bpl, m | .bvc, m | .bvs, m => m == .rel

/-- The operation an instruction performs. -/
def Instr.operation : Instr → Operation
  | .adcImm _ | .adcZp _ | .adcZpx _ | .adcAbs _ | .adcAbsx _ | .adcAbsy _ | .adcIndx _ | .adcIndy _ => .adc
  | .andImm _ | .andZp _ | .andZpx _ | .andAbs _ | .andAbsx _ | .andAbsy _ | .andIndx _ | .andIndy _ => .and
  | .aslAcc | .aslZp _ | .aslZpx _ | .aslAbs _ | .aslAbsx _ => .asl
  | .cmpImm _ | .cmpZp _ | .cmpZpx _ | .cmpAbs _ | .cmpAbsx _ | .cmpAbsy _ | .cmpIndx _ | .cmpIndy _ => .cmp
  | .bitZp _ | .bitAbs _ => .bit
  | .ldaImm _ | .ldaZp _ | .ldaZpx _ | .ldaAbs _ | .ldaAbsx _ | .ldaAbsy _ | .ldaIndx _ | .ldaIndy _ => .lda
  | .bcc _ => .bcc | .bcs _ => .bcs | .beq _ => .beq | .bne _ => .bne
  | .bmi _ => .bmi | .bpl _ => .bpl | .bvc _ => .bvc | .bvs _ => .bvs

/-- The addressing mode of an instruction. -/
def Instr.mode : Instr → Mode
  | .aslAcc => .acc
  | .adcImm _ | .andImm _ | .cmpImm _ | .ldaImm _ => .imm
  | .adcZp _ | .andZp _ | .aslZp _ | .cmpZp _ | .bitZp _ | .ldaZp _ => .zp
  | .adcZpx _ | .andZpx _ | .aslZpx _ | .cmpZpx _ | .ldaZpx _ => .zpx
  | .adcAbs _ | .andAbs _ | .aslAbs _ | .cmpAbs _ | .bitAbs _ | .ldaAbs _ => .abs
  | .adcAbsx _ | .andAbsx _ | .aslAbsx _ | .cmpAbsx _ | .ldaAbsx _ => .absx
  | .adcAbsy _ | .andAbsy _ | .cmpAbsy _ | .ldaAbsy _ => .absy
  | .adcIndx _ | .andIndx _ | .cmpIndx _ | .ldaIndx _ => .indx
  | .adcIndy _ | .andIndy _ | .cmpIndy _ | .ldaIndy _ => .indy
  | .bcc _ | .bcs _ | .beq _ | .bne _ | .bmi _ | .bpl _ | .bvc _ | .bvs _ => .rel

/-- An instruction is well formed when its operation has its mode (R96). Every operand value is legal
(R99) and its width is its type, so every `Instr` passes: the check is one of the constructors above. -/
def Instr.wellFormed (i : Instr) : Bool := i.operation.takes i.mode

/-- One row respects D3: REL with branches only and branches with REL only, ACC with ASL only, and
(D15) a positive cycle count. -/
def OpcodeRow.legal (r : OpcodeRow) : Bool :=
  (r.mode == .rel) == r.operation.isBranch && (r.mode != .acc || r.operation == .asl) && decide (0 < r.cycles)

/-- A table respects D3: "a map, so no two rows for one byte", and every row is legal. A table that
breaks this is refused before a run starts (93_implementation_defined.md U10). -/
def OpcodeTable.legal (t : OpcodeTable) : Bool :=
  decide (List.Pairwise (fun r r' => r.opcode ≠ r'.opcode) t) && t.all OpcodeRow.legal

/-- A legal value of the two open parameters: what the engine of Machine/Engine.lean takes. -/
structure Tables where
  rows  : OpcodeTable
  legal : rows.legal = true

end Sys2Proof
end

