-- ==== Sys2Proof/Decode.lean ====
section
/-! DEFINITION. The opcode map of profile CORE14 (30_encoding.md R94, the default of DECODE_TABLE and
CYCLE_TABLE, R8), the decoder over a list of bytes, and the encoder, written from R96. -/

namespace Sys2Proof

/-- The three formats of R91. -/
inductive Format where
  | f1 | f2 | f3
  deriving DecidableEq, Repr

/-- Length in bytes of a format (R91). -/
def Format.length : Format → Nat
  | .f1 => 1 | .f2 => 2 | .f3 => 3

/-- The format of each mode: the last column of R91's table. -/
def Mode.format : Mode → Format
  | .acc => .f1
  | .imm | .zp | .zpx | .indx | .indy | .rel => .f2
  | .abs | .absx | .absy => .f3

/-- `N` of R151: how many operand bytes the mode reads. -/
def Mode.operandBytes : Mode → Nat
  | .acc => 0
  | .imm | .zp | .zpx | .indx | .indy | .rel => 1
  | .abs | .absx | .absy => 2

/-- R94, rows 0x06 to 0x3D. -/
def core14RowsLow : OpcodeTable :=
  [⟨0x06, .asl, .zp, 5⟩, ⟨0x0A, .asl, .acc, 2⟩, ⟨0x0E, .asl, .abs, 6⟩, ⟨0x10, .bpl, .rel, 2⟩,
   ⟨0x16, .asl, .zpx, 6⟩, ⟨0x1E, .asl, .absx, 7⟩, ⟨0x21, .and, .indx, 6⟩, ⟨0x24, .bit, .zp, 3⟩,
   ⟨0x25, .and, .zp, 3⟩, ⟨0x29, .and, .imm, 2⟩, ⟨0x2C, .bit, .abs, 4⟩, ⟨0x2D, .and, .abs, 4⟩,
   ⟨0x30, .bmi, .rel, 2⟩, ⟨0x31, .and, .indy, 5⟩, ⟨0x35, .and, .zpx, 4⟩, ⟨0x39, .and, .absy, 4⟩,
   ⟨0x3D, .and, .absx, 4⟩]

/-- R94, rows 0x50 to 0x90. -/
def core14RowsMid : OpcodeTable :=
  [⟨0x50, .bvc, .rel, 2⟩, ⟨0x61, .adc, .indx, 6⟩, ⟨0x65, .adc, .zp, 3⟩, ⟨0x69, .adc, .imm, 2⟩,
   ⟨0x6D, .adc, .abs, 4⟩, ⟨0x70, .bvs, .rel, 2⟩, ⟨0x71, .adc, .indy, 5⟩, ⟨0x75, .adc, .zpx, 4⟩,
   ⟨0x79, .adc, .absy, 4⟩, ⟨0x7D, .adc, .absx, 4⟩, ⟨0x90, .bcc, .rel, 2⟩]

/-- R94, rows 0xA1 to 0xF0. -/
def core14RowsHigh : OpcodeTable :=
  [⟨0xA1, .lda, .indx, 6⟩, ⟨0xA5, .lda, .zp, 3⟩, ⟨0xA9, .lda, .imm, 2⟩, ⟨0xAD, .lda, .abs, 4⟩,
   ⟨0xB0, .bcs, .rel, 2⟩, ⟨0xB1, .lda, .indy, 5⟩, ⟨0xB5, .lda, .zpx, 4⟩, ⟨0xB9, .lda, .absy, 4⟩,
   ⟨0xBD, .lda, .absx, 4⟩, ⟨0xC1, .cmp, .indx, 6⟩, ⟨0xC5, .cmp, .zp, 3⟩, ⟨0xC9, .cmp, .imm, 2⟩,
   ⟨0xCD, .cmp, .abs, 4⟩, ⟨0xD0, .bne, .rel, 2⟩, ⟨0xD1, .cmp, .indy, 5⟩, ⟨0xD5, .cmp, .zpx, 4⟩,
   ⟨0xD9, .cmp, .absy, 4⟩, ⟨0xDD, .cmp, .absx, 4⟩, ⟨0xF0, .beq, .rel, 2⟩]

/-- The opcode map of profile CORE14: the 47 rows of R94. PRESUMED (unsafe): the byte values and the
cycle counts are the MOS 6502's, "from general knowledge, not in source" (D3, D15; log entries 1 and 2). -/
def core14Rows : OpcodeTable := core14RowsLow ++ (core14RowsMid ++ core14RowsHigh)

/-- Decode is "a lookup of the whole opcode byte in one immutable table" (R206). -/
def OpcodeTable.lookup (t : OpcodeTable) (op : Byte) : Option OpcodeRow :=
  t.find? fun r => r.opcode == op

/-- The default value of DECODE_TABLE and CYCLE_TABLE (R8), with the check of D3. -/
def core14 : Tables := ⟨core14Rows, by decide⟩

/-- The instruction that an operation and a mode of R96 make of the operand bytes `b1` and `b2`, which
are taken in the order of R91 and R68 (`b1` is `lo` and `b2` is `hi` for the absolute modes); a pair
that R96 leaves blank makes none. -/
def Instr.build (o : Operation) (m : Mode) (b1 b2 : Byte) : Option Instr :=
  match o, m with
  | .adc, .imm => some (.adcImm b1) | .adc, .zp => some (.adcZp b1) | .adc, .zpx => some (.adcZpx b1)
  | .adc, .abs => some (.adcAbs (joinBytes b2 b1)) | .adc, .absx => some (.adcAbsx (joinBytes b2 b1))
  | .adc, .absy => some (.adcAbsy (joinBytes b2 b1))
  | .adc, .indx => some (.adcIndx b1) | .adc, .indy => some (.adcIndy b1)
  | .and, .imm => some (.andImm b1) | .and, .zp => some (.andZp b1) | .and, .zpx => some (.andZpx b1)
  | .and, .abs => some (.andAbs (joinBytes b2 b1)) | .and, .absx => some (.andAbsx (joinBytes b2 b1))
  | .and, .absy => some (.andAbsy (joinBytes b2 b1))
  | .and, .indx => some (.andIndx b1) | .and, .indy => some (.andIndy b1)
  | .asl, .acc => some .aslAcc | .asl, .zp => some (.aslZp b1) | .asl, .zpx => some (.aslZpx b1)
  | .asl, .abs => some (.aslAbs (joinBytes b2 b1)) | .asl, .absx => some (.aslAbsx (joinBytes b2 b1))
  | .cmp, .imm => some (.cmpImm b1) | .cmp, .zp => some (.cmpZp b1) | .cmp, .zpx => some (.cmpZpx b1)
  | .cmp, .abs => some (.cmpAbs (joinBytes b2 b1)) | .cmp, .absx => some (.cmpAbsx (joinBytes b2 b1))
  | .cmp, .absy => some (.cmpAbsy (joinBytes b2 b1))
  | .cmp, .indx => some (.cmpIndx b1) | .cmp, .indy => some (.cmpIndy b1)
  | .bit, .zp => some (.bitZp b1) | .bit, .abs => some (.bitAbs (joinBytes b2 b1))
  | .lda, .imm => some (.ldaImm b1) | .lda, .zp => some (.ldaZp b1) | .lda, .zpx => some (.ldaZpx b1)
  | .lda, .abs => some (.ldaAbs (joinBytes b2 b1)) | .lda, .absx => some (.ldaAbsx (joinBytes b2 b1))
  | .lda, .absy => some (.ldaAbsy (joinBytes b2 b1))
  | .lda, .indx => some (.ldaIndx b1) | .lda, .indy => some (.ldaIndy b1)
  | .bcc, .rel => some (.bcc b1) | .bcs, .rel => some (.bcs b1)
  | .beq, .rel => some (.beq b1) | .bne, .rel => some (.bne b1)
  | .bmi, .rel => some (.bmi b1) | .bpl, .rel => some (.bpl b1)
  | .bvc, .rel => some (.bvc b1) | .bvs, .rel => some (.bvs b1)
  | _, _ => none

/-- Why a list of bytes is no instruction. -/
inductive DecodeReject where
  /-- The opcode byte has no row: an illegal opcode (R98). This is the hardware's InvalidOpcode. -/
  | unmapped (op : Byte)
  /-- The list ends before the instruction does. A memory never does (its addresses wrap, R65), so the
  machine never meets this: it is a matter of decoding a finite list (log entry 12). -/
  | truncated
  deriving DecidableEq, Repr

/-- The row's operand bytes, cut from the bytes after the opcode: none, one or two (R91, R151). -/
def takeOperands (n : Nat) (bs : List Byte) : Option (Byte × Byte × List Byte) :=
  match n, bs with
  | 0, rest => some (0, 0, rest)
  | 1, b1 :: rest => some (b1, 0, rest)
  | 2, b1 :: b2 :: rest => some (b1, b2, rest)
  | _, _ => none

/-- Decode one instruction at the head of a list of bytes: the instruction and the bytes after it, or
the reason there is none. The opcode byte alone decides the operation, the mode and the length (R92,
R207). -/
def decode (bs : List Byte) : Except DecodeReject (Instr × List Byte) :=
  match bs with
  | [] => .error .truncated
  | op :: rest =>
    match core14Rows.lookup op with
    | none => .error (.unmapped op)
    | some row =>
      match takeOperands row.mode.operandBytes rest with
      | none => .error .truncated
      | some (b1, b2, rest') =>
        match Instr.build row.operation row.mode b1 b2 with
        | none => .error (.unmapped op)
        | some i => .ok (i, rest')

/-- The bytes of an instruction, opcode first (R90), the operand of an absolute mode low byte first
(R91, R68). The opcode bytes are written from the table of R96, row by row, not from `core14Rows`. -/
def encode : Instr → List Byte
  | .adcImm v => [0x69, v] | .adcZp b => [0x65, b] | .adcZpx b => [0x75, b]
  | .adcAbs w => [0x6D, lowByte w, highByte w] | .adcAbsx w => [0x7D, lowByte w, highByte w]
  | .adcAbsy w => [0x79, lowByte w, highByte w] | .adcIndx b => [0x61, b] | .adcIndy b => [0x71, b]
  | .andImm v => [0x29, v] | .andZp b => [0x25, b] | .andZpx b => [0x35, b]
  | .andAbs w => [0x2D, lowByte w, highByte w] | .andAbsx w => [0x3D, lowByte w, highByte w]
  | .andAbsy w => [0x39, lowByte w, highByte w] | .andIndx b => [0x21, b] | .andIndy b => [0x31, b]
  | .aslAcc => [0x0A] | .aslZp b => [0x06, b] | .aslZpx b => [0x16, b]
  | .aslAbs w => [0x0E, lowByte w, highByte w] | .aslAbsx w => [0x1E, lowByte w, highByte w]
  | .bitZp b => [0x24, b] | .bitAbs w => [0x2C, lowByte w, highByte w]
  | .cmpImm v => [0xC9, v] | .cmpZp b => [0xC5, b] | .cmpZpx b => [0xD5, b]
  | .cmpAbs w => [0xCD, lowByte w, highByte w] | .cmpAbsx w => [0xDD, lowByte w, highByte w]
  | .cmpAbsy w => [0xD9, lowByte w, highByte w] | .cmpIndx b => [0xC1, b] | .cmpIndy b => [0xD1, b]
  | .ldaImm v => [0xA9, v] | .ldaZp b => [0xA5, b] | .ldaZpx b => [0xB5, b]
  | .ldaAbs w => [0xAD, lowByte w, highByte w] | .ldaAbsx w => [0xBD, lowByte w, highByte w]
  | .ldaAbsy w => [0xB9, lowByte w, highByte w] | .ldaIndx b => [0xA1, b] | .ldaIndy b => [0xB1, b]
  | .bpl d => [0x10, d] | .bmi d => [0x30, d] | .bvc d => [0x50, d] | .bvs d => [0x70, d]
  | .bcc d => [0x90, d] | .bcs d => [0xB0, d] | .bne d => [0xD0, d] | .beq d => [0xF0, d]

/-- The longest instruction's bytes (three, R90) of a number numbered as spec/opcode_table.json numbers
it: byte `k` is bits `8k+7` to `8k`, and every bit from `nbits` up is 0. -/
def tableWordBytes (nbits w : Nat) : List Byte :=
  let v := w % 2 ^ nbits
  [BitVec.ofNat 8 v, BitVec.ofNat 8 (v / 256), BitVec.ofNat 8 (v / 65536)]

/-- The instruction the decoder reads from a word of the opcode table. -/
def decodeTableWord (nbits w : Nat) : Option Instr :=
  match decode (tableWordBytes nbits w) with
  | .ok (i, _) => some i
  | .error _ => none

end Sys2Proof
end

