-- ==== Sys2Proof/Machine/State.lean ====
section
/-! DEFINITION. The state of the core: the seven items of 10_state.md R20, and one field of the model's
own, the response of the last `step` call. Status register, memory and the result of a step are plain
data; the functions over them stand in Flags.lean and Ops.lean. -/

namespace Sys2Proof.Machine

/-- The eight flags (R30), bit 7 to bit 0. -/
inductive Flag where
  | negative | overflow | unused | break | decimal | interruptDisable | zero | carry
  deriving DecidableEq, Repr

/-- The status register `P`: eight single-bit flags (R30), `true` for a set bit. It corresponds one to
one with its byte (R39; `Status.asByte` and `Status.fromByte` in Flags.lean). -/
@[ext]
structure Status where
  /-- bit 7, Negative -/
  n : Bool
  /-- bit 6, Overflow -/
  v : Bool
  /-- bit 5, Unused: a stored bit like the others (R32) -/
  u : Bool
  /-- bit 4, Break -/
  b : Bool
  /-- bit 3, Decimal -/
  d : Bool
  /-- bit 2, Interrupt disable -/
  i : Bool
  /-- bit 1, Zero -/
  z : Bool
  /-- bit 0, Carry -/
  c : Bool
  deriving DecidableEq, Repr

/-- The result of a `step` call (43_fetch_decode_execute.md R204): `Ok(cycles)` (R205) or the one error
of the core with its two fields (60_exceptions.md R232). -/
inductive StepResult where
  | ok (cycles : Nat)
  | invalidOpcode (op : Byte) (addr : Addr)
  deriving DecidableEq, Repr

/-- The memory: the bytes that are not zero, as (address, byte) pairs at strictly rising addresses
(`Memory.wf` in Ops.lean). An address that is not listed reads as 0x00 (R41, R43, R62). -/
abbrev Memory := List Host.Cell

/-- The state of the core. The first seven fields are the whole state the spec gives it (R20, R45). -/
@[ext]
structure State where
  /-- program counter, 16 bits (R28) -/
  pc : Addr
  /-- stack pointer, 8 bits; inert in profile CORE14 (R23) -/
  sp : Byte
  /-- accumulator, 8 bits (R21) -/
  a : Byte
  /-- index register X, 8 bits (R22) -/
  x : Byte
  /-- index register Y, 8 bits (R22) -/
  y : Byte
  /-- status register, 8 flags (R30) -/
  p : Status
  /-- the 65536 bytes of the address space (R43, R60) -/
  mem : Memory
  /-- THE MODEL'S OWN (DESIGN CHOICE, log entry 8): what the last `step` call returned to its caller,
  `none` before the first call. No step reads it. The host's interface has no place for a result beside
  the next state, so the returned value is held here. -/
  response : Option StepResult
  deriving DecidableEq, Repr

/-- The reasons to stop with a fault: none. "The core has no halted, sleeping or stuck state" (R204),
memory has no error (R64) and "the core never stops" (R272); InvalidOpcode is a result after which `step`
may be called again (R204), so it is a next state with that result (log entry 7). -/
inductive Fault where
  deriving DecidableEq, Repr

/-- The reasons to refuse an instruction. -/
inductive Refusal where
  /-- Raised by an arm of `exec` for an instruction that has no meaning yet; safe (the model stops). In
  this model every instruction has its meaning and no arm raises it. -/
  | notModelled (mnemonic : String)
  deriving DecidableEq, Repr

/-- All eight flags clear (R41). -/
def Status.cleared : Status :=
  { n := false, v := false, u := false, b := false, d := false, i := false, z := false, c := false }

/-- The state after construction (R41, R260): every register zero, every flag clear, every byte of
memory zero, and no `step` call yet. Every value is the spec's but `response` (log entry 8). -/
def State.reset : State :=
  { pc := 0x0000, sp := 0x00, a := 0x00, x := 0x00, y := 0x00, p := Status.cleared, mem := [],
    response := none }

end Sys2Proof.Machine
end

