-- ==== Sys2Proof/Machine/Flags.lean ====
section
/-! DEFINITION. The status register block (10_state.md R35 to R39) and every flag computation of
40_alu_operations.md. -/

namespace Sys2Proof.Machine

/-- The bit position of a flag in the status byte (R30). -/
def Flag.bit : Flag → Nat
  | .negative => 7 | .overflow => 6 | .unused => 5 | .break => 4
  | .decimal => 3 | .interruptDisable => 2 | .zero => 1 | .carry => 0

/-- `get(flag)` (R35). -/
def Status.get (p : Status) : Flag → Bool
  | .negative => p.n | .overflow => p.v | .unused => p.u | .break => p.b
  | .decimal => p.d | .interruptDisable => p.i | .zero => p.z | .carry => p.c

/-- `P.F <- b` (R10, R36): write one flag and leave the other seven. -/
def Status.put (p : Status) (f : Flag) (b : Bool) : Status :=
  match f with
  | .negative => { p with n := b } | .overflow => { p with v := b } | .unused => { p with u := b }
  | .break => { p with b := b } | .decimal => { p with d := b } | .interruptDisable => { p with i := b }
  | .zero => { p with z := b } | .carry => { p with c := b }

/-- `set(flag)` (R36). -/
def Status.set (p : Status) (f : Flag) : Status := p.put f true

/-- `clear(flag)` (R36). -/
def Status.clear (p : Status) (f : Flag) : Status := p.put f false

/-- `as_byte()`: the packed byte (R37). -/
def Status.asByte (p : Status) : Byte :=
  BitVec.ofNat 8 (p.n.toNat * 128 + p.v.toNat * 64 + p.u.toNat * 32 + p.b.toNat * 16 + p.d.toNat * 8 +
    p.i.toNat * 4 + p.z.toNat * 2 + p.c.toNat)

/-- `from_byte(b)`: the flag at bit `i` is `b[i]` (R38). No instruction applies it to the live `P`. -/
def Status.fromByte (b : Byte) : Status :=
  { n := b.getLsbD 7, v := b.getLsbD 6, u := b.getLsbD 5, b := b.getLsbD 4, d := b.getLsbD 3,
    i := b.getLsbD 2, z := b.getLsbD 1, c := b.getLsbD 0 }

/-- `ZN(r)`: the common Zero and Negative derivation (R121). -/
def Status.zn (p : Status) (r : Byte) : Status := { p with z := r == 0, n := r.getLsbD 7 }

/-- The natural-number sum `A + M + P.C`, 0 to 511, of R123. -/
def adcSum (a m : Byte) (carryIn : Bool) : Nat := a.toNat + m.toNat + carryIn.toNat

/-- ADC's `r`: the sum modulo 256 (R123). -/
def adcResult (a m : Byte) (carryIn : Bool) : Byte := BitVec.ofNat 8 (adcSum a m carryIn)

/-- ADC's flags (R123): C from the widened sum, V from the sign rule, Z and N from the result. `D` is
not read: ADC is always binary (R124). -/
def adcFlags (a m : Byte) (p : Status) : Status :=
  let r := adcResult a m p.c
  { p.zn r with c := decide (adcSum a m p.c > 0xFF), v := ((m ^^^ r) &&& (a ^^^ r) &&& 0x80) != 0 }

/-- ASL's `r = (M << 1) & 0xFF` (R127). -/
def aslResult (m : Byte) : Byte := m <<< 1

/-- ASL's flags (R127): C is bit 7 of the input, Z and N come from the result. -/
def aslFlags (m : Byte) (p : Status) : Status :=
  { p.zn (aslResult m) with c := (m &&& 0x80) != 0 }

/-- CMP's flags (R129): an unsigned comparison, an equality, and bit 7 of the difference. -/
def cmpFlags (a m : Byte) (p : Status) : Status :=
  { p with c := decide (m.toNat ≤ a.toNat), z := a == m, n := (a - m).getLsbD 7 }

/-- BIT's flags (R130): Z from `A & M`, V and N from bits 6 and 7 of the operand. -/
def bitFlags (a m : Byte) (p : Status) : Status :=
  { p with z := (a &&& m) == 0, v := m.getLsbD 6, n := m.getLsbD 7 }

end Sys2Proof.Machine
end

