-- ==== Sys2Proof/Machine/Ops.lean ====
section
/-! DEFINITION. The named operations over memory and registers: MemRead and MemWrite (20_memory.md R62,
R63), register writes, the advance of `pc` (10_state.md R28, R29), the completion of a step and the one
exceptional event, InvalidOpcode (60_exceptions.md R231). -/

namespace Sys2Proof.Machine

/-- What an address that is not listed reads as: 0x00, "zero-initialized at CPU construction" (R43, R62). -/
def Memory.unlisted : Byte := 0x00

/-- The byte at key `k`: the first listed one, or `Memory.unlisted`. -/
def Memory.readKey : Memory → Nat → Byte
  | [], _ => Memory.unlisted
  | c :: rest, k => if c.1 = k then c.2 else Memory.readKey rest k

/-- `MemRead(addr, 1)` (R62): total, without side effect. -/
def Memory.read (m : Memory) (addr : Addr) : Byte := m.readKey addr.toNat

/-- Put a cell before the first one with a larger key. -/
def Memory.insertCell (k : Nat) (v : Byte) : Memory → Memory
  | [] => [(k, v)]
  | c :: rest => if k < c.1 then (k, v) :: c :: rest else c :: Memory.insertCell k v rest

/-- `MemWrite(addr, 1, v)` (R63): the old cell goes; a new one is listed unless it would read the same
unlisted. -/
def Memory.write (m : Memory) (addr : Addr) (v : Byte) : Memory :=
  let others := m.filter fun c => c.1 != addr.toNat
  if v = Memory.unlisted then others else Memory.insertCell addr.toNat v others

/-- The canonical form: strictly rising addresses, each in 0 to 65535, no listed byte that an unlisted
address would read as. Equal memories are then equal lists. -/
def Memory.wf (m : Memory) : Bool :=
  decide (List.Pairwise (fun c d => c.1 < d.1) m) &&
    m.all fun c => decide (c.1 < 65536) && c.2 != Memory.unlisted

/-- `A <- v` (R10). -/
def State.setA (s : State) (v : Byte) : State := { s with a := v }

/-- Write the status register; each flag function names the flags it changes (R40). -/
def State.setP (s : State) (p : Status) : State := { s with p := p }

/-- `pc <- t` (R10). -/
def State.setPc (s : State) (t : Addr) : State := { s with pc := t }

/-- `pc <- pc +16 n`: "every advance is `pc <- pc +16 n`" (R29). -/
def State.advance (s : State) (n : Nat) : State := s.setPc (s.pc + BitVec.ofNat 16 n)

/-- `MemRead(addr, 1)` on the core's memory (R62). -/
def State.read (s : State) (addr : Addr) : Byte := s.mem.read addr

/-- `MemWrite(addr, 1, v)` on the core's memory (R63). -/
def State.write (s : State) (addr : Addr) (v : Byte) : State := { s with mem := s.mem.write addr v }

/-- Successive `MemWrite`s at ascending addresses from `addr`, wrapping at the top of the space (R65): how
a loader places bytes (R78). -/
def State.storeBytes (s : State) (addr : Addr) : List Byte → State
  | [] => s
  | v :: rest => (s.write addr v).storeBytes (addr + 1) rest

/-- The `step` call returns `r` to its caller (R204, R205). -/
def State.respond (s : State) (r : StepResult) : State := { s with response := some r }

/-- The end of a step whose instruction was executed: `Ok(cycles)` (R200). -/
def completeStep (o : Host.Outcome State Fault Refusal) (cycles : Nat) : Host.Outcome State Fault Refusal :=
  match o with
  | .next t => .next (t.respond (.ok cycles))
  | .fault r => .fault r
  | .refused r => .refused r

/-- TAKING THE EXCEPTION. The step ends in `InvalidOpcode(op, a)`, `a` the address of the offending byte
and `op` the byte (R230, R232): `pc` is `a +16 1`, every other register, every flag and every byte of
memory is as before (R231). Nothing is saved, no vector is taken, no mode changes (R238); control goes to
the caller with the error value. There is no return from it (R239): the next `step` call fetches at
`a +16 1`. -/
def takeInvalidOpcode (s : State) : State :=
  (s.advance 1).respond (.invalidOpcode (s.read s.pc) s.pc)

end Sys2Proof.Machine
end

