-- ==== Sys2Proof/Machine/Operands.lean ====
section
/-! DEFINITION. The effective address of every memory mode, from the operand an instruction carries
(41_addressing_modes.md R155 to R161; 30_encoding.md R93), and the target of the relative mode (R154).
The engine's own view, in which the mode reads its operand bytes at `pc`, is `resolve` in Engine.lean. -/

namespace Sys2Proof.Machine

/-- ZP (R155): the zero-page byte as an address. -/
def eaZp (zp : Byte) : Addr := zext16 zp

/-- ZPX (R156): "the sum wraps inside the zero page". -/
def eaZpx (zp : Byte) (s : State) : Addr := zext16 (zp + s.x)

/-- ABS (R157): the address itself. -/
def eaAbs (addr : Addr) : Addr := addr

/-- ABSX (R158): the sum is modulo 65536. -/
def eaAbsx (addr : Addr) (s : State) : Addr := addr + zext16 s.x

/-- ABSY (R159). -/
def eaAbsy (addr : Addr) (s : State) : Addr := addr + zext16 s.y

/-- The pointer whose low byte is at zero-page address `z`: its second byte "also wraps in the zero
page" (R160), low byte first (R68). -/
def zeroPagePointer (s : State) (z : Byte) : Addr :=
  joinBytes (s.read (zext16 (z + 1))) (s.read (zext16 z))

/-- INDX, `($nn,X)` (R160). -/
def eaIndx (zp : Byte) (s : State) : Addr := zeroPagePointer s (zp + s.x)

/-- INDY, `($nn),Y` (R161). -/
def eaIndy (zp : Byte) (s : State) : Addr := zeroPagePointer s zp + zext16 s.y

/-- REL (R154): the target, `pc` being the address of the displacement byte. -/
def branchTarget (pc : Addr) (disp : Byte) : Addr := pc + 1 + sext16 disp

end Sys2Proof.Machine
end

