-- ==== Sys2Proof/Machine/Alu.lean ====
section
/-! DEFINITION. The operations as functions of the operand byte, "independent of how the operand was
fetched" (40_alu_operations.md R120), and the two shapes every meaning is one line over: an operation on
the byte at an effective address, and a branch. The state given to them has `pc` at the first operand
byte, the opcode having been fetched (43_fetch_decode_execute.md R200). -/

namespace Sys2Proof.Machine

/-- ADC (R123). -/
def applyAdc (m : Byte) (s : State) : State := (s.setA (adcResult s.a m s.p.c)).setP (adcFlags s.a m s.p)

/-- AND (R126). -/
def applyAnd (m : Byte) (s : State) : State := (s.setA (s.a &&& m)).setP (s.p.zn (s.a &&& m))

/-- ASL, accumulator form (R127). -/
def applyAslAcc (s : State) : State := (s.setA (aslResult s.a)).setP (aslFlags s.a s.p)

/-- ASL, memory form (R128): the shifted byte is stored back, once, at the effective address. -/
def applyAslMem (ea : Addr) (s : State) : State :=
  (s.write ea (aslResult (s.read ea))).setP (aslFlags (s.read ea) s.p)

/-- CMP (R129): only flags. -/
def applyCmp (m : Byte) (s : State) : State := s.setP (cmpFlags s.a m s.p)

/-- BIT (R130): only flags. -/
def applyBit (m : Byte) (s : State) : State := s.setP (bitFlags s.a m s.p)

/-- LDA (R131). -/
def applyLda (m : Byte) (s : State) : State := (s.setA m).setP (s.p.zn m)

/-- An instruction whose mode has consumed `n` operand bytes and which then does `f` (R122). -/
def finishAlu (n : Nat) (f : State → State) (s : State) : Host.Outcome State Fault Refusal :=
  .next (f (s.advance n))

/-- The common body of the eight branches (42_branches.md R180): the target when the predicate holds,
one byte past the displacement otherwise; nothing but `pc` is written. -/
def branchIf (cond : Bool) (disp : Byte) (s : State) : Host.Outcome State Fault Refusal :=
  .next (if cond then s.setPc (branchTarget s.pc disp) else s.advance 1)

end Sys2Proof.Machine
end

