-- ==== Sys2Proof/Machine/Adc.lean ====
section
/-! DEFINITION. ADC, add with carry (40_alu_operations.md R123): one meaning per mode of 30_encoding.md R96, each
over the operation `applyAdc` of Alu.lean and the mode's effective address of Operands.lean. -/

namespace Sys2Proof.Machine

/-- ADC in mode IMM (R123, R153). -/
def execAdcImm (value : Byte) (s : State) : Host.Outcome State Fault Refusal :=
  finishAlu 1 (applyAdc value) s

/-- ADC in mode ZP (R123, R155). -/
def execAdcZp (zp : Byte) (s : State) : Host.Outcome State Fault Refusal :=
  finishAlu 1 (applyAdc (s.read (eaZp zp))) s

/-- ADC in mode ZPX (R123, R156). -/
def execAdcZpx (zp : Byte) (s : State) : Host.Outcome State Fault Refusal :=
  finishAlu 1 (applyAdc (s.read (eaZpx zp s))) s

/-- ADC in mode ABS (R123, R157). -/
def execAdcAbs (addr : Addr) (s : State) : Host.Outcome State Fault Refusal :=
  finishAlu 2 (applyAdc (s.read (eaAbs addr))) s

/-- ADC in mode ABSX (R123, R158). -/
def execAdcAbsx (addr : Addr) (s : State) : Host.Outcome State Fault Refusal :=
  finishAlu 2 (applyAdc (s.read (eaAbsx addr s))) s

/-- ADC in mode ABSY (R123, R159). -/
def execAdcAbsy (addr : Addr) (s : State) : Host.Outcome State Fault Refusal :=
  finishAlu 2 (applyAdc (s.read (eaAbsy addr s))) s

/-- ADC in mode INDX (R123, R160). -/
def execAdcIndx (zp : Byte) (s : State) : Host.Outcome State Fault Refusal :=
  finishAlu 1 (applyAdc (s.read (eaIndx zp s))) s

/-- ADC in mode INDY (R123, R161). -/
def execAdcIndy (zp : Byte) (s : State) : Host.Outcome State Fault Refusal :=
  finishAlu 1 (applyAdc (s.read (eaIndy zp s))) s

end Sys2Proof.Machine
end

