-- ==== Sys2Proof/Machine/And.lean ====
section
/-! DEFINITION. AND, logical AND (40_alu_operations.md R126): one meaning per mode of 30_encoding.md R96, each
over the operation `applyAnd` of Alu.lean and the mode's effective address of Operands.lean. -/

namespace Sys2Proof.Machine

/-- AND in mode IMM (R126, R153). -/
def execAndImm (value : Byte) (s : State) : Host.Outcome State Fault Refusal :=
  finishAlu 1 (applyAnd value) s

/-- AND in mode ZP (R126, R155). -/
def execAndZp (zp : Byte) (s : State) : Host.Outcome State Fault Refusal :=
  finishAlu 1 (applyAnd (s.read (eaZp zp))) s

/-- AND in mode ZPX (R126, R156). -/
def execAndZpx (zp : Byte) (s : State) : Host.Outcome State Fault Refusal :=
  finishAlu 1 (applyAnd (s.read (eaZpx zp s))) s

/-- AND in mode ABS (R126, R157). -/
def execAndAbs (addr : Addr) (s : State) : Host.Outcome State Fault Refusal :=
  finishAlu 2 (applyAnd (s.read (eaAbs addr))) s

/-- AND in mode ABSX (R126, R158). -/
def execAndAbsx (addr : Addr) (s : State) : Host.Outcome State Fault Refusal :=
  finishAlu 2 (applyAnd (s.read (eaAbsx addr s))) s

/-- AND in mode ABSY (R126, R159). -/
def execAndAbsy (addr : Addr) (s : State) : Host.Outcome State Fault Refusal :=
  finishAlu 2 (applyAnd (s.read (eaAbsy addr s))) s

/-- AND in mode INDX (R126, R160). -/
def execAndIndx (zp : Byte) (s : State) : Host.Outcome State Fault Refusal :=
  finishAlu 1 (applyAnd (s.read (eaIndx zp s))) s

/-- AND in mode INDY (R126, R161). -/
def execAndIndy (zp : Byte) (s : State) : Host.Outcome State Fault Refusal :=
  finishAlu 1 (applyAnd (s.read (eaIndy zp s))) s

end Sys2Proof.Machine
end

