-- ==== Sys2Proof/Machine/Asl.lean ====
section
/-! DEFINITION. ASL, arithmetic shift left (40_alu_operations.md R127, R128): the accumulator form and
the four memory forms. -/

namespace Sys2Proof.Machine

/-- ASL A (R127, R152): no operand byte, no data memory. -/
def execAslAcc (s : State) : Host.Outcome State Fault Refusal := .next (applyAslAcc s)

/-- ASL in mode ZP (R128, R155). -/
def execAslZp (zp : Byte) (s : State) : Host.Outcome State Fault Refusal :=
  finishAlu 1 (applyAslMem (eaZp zp)) s

/-- ASL in mode ZPX (R128, R156). -/
def execAslZpx (zp : Byte) (s : State) : Host.Outcome State Fault Refusal :=
  finishAlu 1 (applyAslMem (eaZpx zp s)) s

/-- ASL in mode ABS (R128, R157). -/
def execAslAbs (addr : Addr) (s : State) : Host.Outcome State Fault Refusal :=
  finishAlu 2 (applyAslMem (eaAbs addr)) s

/-- ASL in mode ABSX (R128, R158). -/
def execAslAbsx (addr : Addr) (s : State) : Host.Outcome State Fault Refusal :=
  finishAlu 2 (applyAslMem (eaAbsx addr s)) s

end Sys2Proof.Machine
end

