-- ==== Sys2Proof/Machine/Bit.lean ====
section
/-! DEFINITION. BIT, bit test (40_alu_operations.md R130): one meaning per mode of 30_encoding.md R96, each
over the operation `applyBit` of Alu.lean and the mode's effective address of Operands.lean. -/

namespace Sys2Proof.Machine

/-- BIT in mode ZP (R130, R155). -/
def execBitZp (zp : Byte) (s : State) : Host.Outcome State Fault Refusal :=
  finishAlu 1 (applyBit (s.read (eaZp zp))) s

/-- BIT in mode ABS (R130, R157). -/
def execBitAbs (addr : Addr) (s : State) : Host.Outcome State Fault Refusal :=
  finishAlu 2 (applyBit (s.read (eaAbs addr))) s

end Sys2Proof.Machine
end

