-- ==== Sys2Proof/Machine/Branch.lean ====
section
/-! DEFINITION. The eight conditional branches (42_branches.md R184 to R191): the predicates of R181 over
the common body `branchIf` of Alu.lean. -/

namespace Sys2Proof.Machine

/-- BCC, branch if carry clear (R184). -/
def execBcc (disp : Byte) (s : State) : Host.Outcome State Fault Refusal := branchIf (!s.p.c) disp s

/-- BCS, branch if carry set (R185). -/
def execBcs (disp : Byte) (s : State) : Host.Outcome State Fault Refusal := branchIf s.p.c disp s

/-- BEQ, branch if equal (R186). -/
def execBeq (disp : Byte) (s : State) : Host.Outcome State Fault Refusal := branchIf s.p.z disp s

/-- BNE, branch if not equal (R187). -/
def execBne (disp : Byte) (s : State) : Host.Outcome State Fault Refusal := branchIf (!s.p.z) disp s

/-- BMI, branch if minus (R188). -/
def execBmi (disp : Byte) (s : State) : Host.Outcome State Fault Refusal := branchIf s.p.n disp s

/-- BPL, branch if plus (R189). -/
def execBpl (disp : Byte) (s : State) : Host.Outcome State Fault Refusal := branchIf (!s.p.n) disp s

/-- BVC, branch if overflow clear (R190). -/
def execBvc (disp : Byte) (s : State) : Host.Outcome State Fault Refusal := branchIf (!s.p.v) disp s

/-- BVS, branch if overflow set (R191). -/
def execBvs (disp : Byte) (s : State) : Host.Outcome State Fault Refusal := branchIf s.p.v disp s

end Sys2Proof.Machine
end

