-- ==== Sys2Proof/Machine/Cmp.lean ====
section
/-! DEFINITION. CMP, compare (40_alu_operations.md R129): one meaning per mode of 30_encoding.md R96, each
over the operation `applyCmp` of Alu.lean and the mode's effective address of Operands.lean. -/

namespace Sys2Proof.Machine

/-- CMP in mode IMM (R129, R153). -/
def execCmpImm (value : Byte) (s : State) : Host.Outcome State Fault Refusal :=
  finishAlu 1 (applyCmp value) s

/-- CMP in mode ZP (R129, R155). -/
def execCmpZp (zp : Byte) (s : State) : Host.Outcome State Fault Refusal :=
  finishAlu 1 (applyCmp (s.read (eaZp zp))) s

/-- CMP in mode ZPX (R129, R156). -/
def execCmpZpx (zp : Byte) (s : State) : Host.Outcome State Fault Refusal :=
  finishAlu 1 (applyCmp (s.read (eaZpx zp s))) s

/-- CMP in mode ABS (R129, R157). -/
def execCmpAbs (addr : Addr) (s : State) : Host.Outcome State Fault Refusal :=
  finishAlu 2 (applyCmp (s.read (eaAbs addr))) s

/-- CMP in mode ABSX (R129, R158). -/
def execCmpAbsx (addr : Addr) (s : State) : Host.Outcome State Fault Refusal :=
  finishAlu 2 (applyCmp (s.read (eaAbsx addr s))) s

/-- CMP in mode ABSY (R129, R159). -/
def execCmpAbsy (addr : Addr) (s : State) : Host.Outcome State Fault Refusal :=
  finishAlu 2 (applyCmp (s.read (eaAbsy addr s))) s

/-- CMP in mode INDX (R129, R160). -/
def execCmpIndx (zp : Byte) (s : State) : Host.Outcome State Fault Refusal :=
  finishAlu 1 (applyCmp (s.read (eaIndx zp s))) s

/-- CMP in mode INDY (R129, R161). -/
def execCmpIndy (zp : Byte) (s : State) : Host.Outcome State Fault Refusal :=
  finishAlu 1 (applyCmp (s.read (eaIndy zp s))) s

end Sys2Proof.Machine
end

