-- ==== Sys2Proof/Machine/Lda.lean ====
section
/-! DEFINITION. LDA, load accumulator (40_alu_operations.md R131): one meaning per mode of 30_encoding.md R96, each
over the operation `applyLda` of Alu.lean and the mode's effective address of Operands.lean. -/

namespace Sys2Proof.Machine

/-- LDA in mode IMM (R131, R153). -/
def execLdaImm (value : Byte) (s : State) : Host.Outcome State Fault Refusal :=
  finishAlu 1 (applyLda value) s

/-- LDA in mode ZP (R131, R155). -/
def execLdaZp (zp : Byte) (s : State) : Host.Outcome State Fault Refusal :=
  finishAlu 1 (applyLda (s.read (eaZp zp))) s

/-- LDA in mode ZPX (R131, R156). -/
def execLdaZpx (zp : Byte) (s : State) : Host.Outcome State Fault Refusal :=
  finishAlu 1 (applyLda (s.read (eaZpx zp s))) s

/-- LDA in mode ABS (R131, R157). -/
def execLdaAbs (addr : Addr) (s : State) : Host.Outcome State Fault Refusal :=
  finishAlu 2 (applyLda (s.read (eaAbs addr))) s

/-- LDA in mode ABSX (R131, R158). -/
def execLdaAbsx (addr : Addr) (s : State) : Host.Outcome State Fault Refusal :=
  finishAlu 2 (applyLda (s.read (eaAbsx addr s))) s

/-- LDA in mode ABSY (R131, R159). -/
def execLdaAbsy (addr : Addr) (s : State) : Host.Outcome State Fault Refusal :=
  finishAlu 2 (applyLda (s.read (eaAbsy addr s))) s

/-- LDA in mode INDX (R131, R160). -/
def execLdaIndx (zp : Byte) (s : State) : Host.Outcome State Fault Refusal :=
  finishAlu 1 (applyLda (s.read (eaIndx zp s))) s

/-- LDA in mode INDY (R131, R161). -/
def execLdaIndy (zp : Byte) (s : State) : Host.Outcome State Fault Refusal :=
  finishAlu 1 (applyLda (s.read (eaIndy zp s))) s

end Sys2Proof.Machine
end

