-- ==== Sys2Proof/Machine/Dispatch.lean ====
section
/-! DEFINITION. The dispatch: one arm per constructor of Instr, one direct call of its meaning. The state
an arm is given has `pc` at the instruction's first operand byte (43_fetch_decode_execute.md R200). -/

namespace Sys2Proof.Machine

def exec (i : Instr) (s : State) : Host.Outcome State Fault Refusal :=
  match i with
  -- ADC, R123
  | .adcImm value => Sys2Proof.Machine.execAdcImm value s
  | .adcZp zp => Sys2Proof.Machine.execAdcZp zp s
  | .adcZpx zp => Sys2Proof.Machine.execAdcZpx zp s
  | .adcAbs addr => Sys2Proof.Machine.execAdcAbs addr s
  | .adcAbsx addr => Sys2Proof.Machine.execAdcAbsx addr s
  | .adcAbsy addr => Sys2Proof.Machine.execAdcAbsy addr s
  | .adcIndx zp => Sys2Proof.Machine.execAdcIndx zp s
  | .adcIndy zp => Sys2Proof.Machine.execAdcIndy zp s
  -- AND, R126
  | .andImm value => Sys2Proof.Machine.execAndImm value s
  | .andZp zp => Sys2Proof.Machine.execAndZp zp s
  | .andZpx zp => Sys2Proof.Machine.execAndZpx zp s
  | .andAbs addr => Sys2Proof.Machine.execAndAbs addr s
  | .andAbsx addr => Sys2Proof.Machine.execAndAbsx addr s
  | .andAbsy addr => Sys2Proof.Machine.execAndAbsy addr s
  | .andIndx zp => Sys2Proof.Machine.execAndIndx zp s
  | .andIndy zp => Sys2Proof.Machine.execAndIndy zp s
  -- ASL, R127 and R128
  | .aslAcc => Sys2Proof.Machine.execAslAcc s
  | .aslZp zp => Sys2Proof.Machine.execAslZp zp s
  | .aslZpx zp => Sys2Proof.Machine.execAslZpx zp s
  | .aslAbs addr => Sys2Proof.Machine.execAslAbs addr s
  | .aslAbsx addr => Sys2Proof.Machine.execAslAbsx addr s
  -- CMP, R129
  | .cmpImm value => Sys2Proof.Machine.execCmpImm value s
  | .cmpZp zp => Sys2Proof.Machine.execCmpZp zp s
  | .cmpZpx zp => Sys2Proof.Machine.execCmpZpx zp s
  | .cmpAbs addr => Sys2Proof.Machine.execCmpAbs addr s
  | .cmpAbsx addr => Sys2Proof.Machine.execCmpAbsx addr s
  | .cmpAbsy addr => Sys2Proof.Machine.execCmpAbsy addr s
  | .cmpIndx zp => Sys2Proof.Machine.execCmpIndx zp s
  | .cmpIndy zp => Sys2Proof.Machine.execCmpIndy zp s
  -- BIT, R130
  | .bitZp zp => Sys2Proof.Machine.execBitZp zp s
  | .bitAbs addr => Sys2Proof.Machine.execBitAbs addr s
  -- LDA, R131
  | .ldaImm value => Sys2Proof.Machine.execLdaImm value s
  | .ldaZp zp => Sys2Proof.Machine.execLdaZp zp s
  | .ldaZpx zp => Sys2Proof.Machine.execLdaZpx zp s
  | .ldaAbs addr => Sys2Proof.Machine.execLdaAbs addr s
  | .ldaAbsx addr => Sys2Proof.Machine.execLdaAbsx addr s
  | .ldaAbsy addr => Sys2Proof.Machine.execLdaAbsy addr s
  | .ldaIndx zp => Sys2Proof.Machine.execLdaIndx zp s
  | .ldaIndy zp => Sys2Proof.Machine.execLdaIndy zp s
  -- the branches, R184 to R191
  | .bcc disp => Sys2Proof.Machine.execBcc disp s
  | .bcs disp => Sys2Proof.Machine.execBcs disp s
  | .beq disp => Sys2Proof.Machine.execBeq disp s
  | .bne disp => Sys2Proof.Machine.execBne disp s
  | .bmi disp => Sys2Proof.Machine.execBmi disp s
  | .bpl disp => Sys2Proof.Machine.execBpl disp s
  | .bvc disp => Sys2Proof.Machine.execBvc disp s
  | .bvs disp => Sys2Proof.Machine.execBvs disp s

end Sys2Proof.Machine
end

