-- ==== Sys2Proof/Machine/Fetch.lean ====
section
/-! DEFINITION. The body of the step operation (43_fetch_decode_execute.md R200): fetch at `pc`, decode,
execute, and the result it returns. -/

namespace Sys2Proof.Machine

/-- The bytes an instruction at `pc` can have: the opcode at `pc` and the next two at ascending addresses,
wrapping (R69, R91). DEDUCED (safe, log entry 11): all three are looked at before the instruction runs;
a read has no side effect at any address (R62), so reading a byte the instruction does not have, or
reading it early, changes nothing. -/
def fetchWindow (s : State) : List Byte := [s.read s.pc, s.read (s.pc + 1), s.read (s.pc + 2)]

/-- `CYCLE_TABLE(op)` (R8, R205), for a mapped byte. -/
def baseCycles (op : Byte) : Nat := ((core14Rows.lookup op).map OpcodeRow.cycles).getD 0

/-- One step: the instruction at `pc`, run from the state in which `pc` has advanced past the opcode
byte, then `Ok(cycles)`; or, for a byte with no row, InvalidOpcode. -/
def fetchDecodeExecute (s : State) : Host.Outcome State Fault Refusal :=
  match decode (fetchWindow s) with
  | .ok (i, _) => completeStep (exec i (s.advance 1)) (baseCycles (s.read s.pc))
  | .error _ => .next (takeInvalidOpcode s)

end Sys2Proof.Machine
end

