-- ==== Sys2Proof/Machine/Step.lean ====
section
/-! DEFINITION. The step function, "the sole unit of mutation" (43_fetch_decode_execute.md R201), and how
an instruction word is placed where the next step fetches it. -/

namespace Sys2Proof.Machine

/-- `step()` (R200): one transition, total, from every state (R202, R204). Its returned value is in the
next state's `response`. -/
def step (s : State) : Host.Outcome State Fault Refusal := fetchDecodeExecute s

/-- `s` with the instruction word `w` of the opcode table stored at `pc` and the two addresses after it
(the bits above `nbits` zero): what a loader's writes leave (70_reset_and_hazards.md R267). Nothing but
those three bytes changes. -/
def State.withFetchWord (s : State) (nbits w : Nat) : State := s.storeBytes s.pc (tableWordBytes nbits w)

end Sys2Proof.Machine
end

