-- ==== Sys2Proof/Machine/Assembly.lean ====
section
/-! DEFINITION. The assembler notation of 30_encoding.md R100, in which the spec writes its programs: the
text of an instruction at an address, and the displacement the assembler stores for a branch target. It
has no effect on the machine (92_eei_decisions.md D20). Text is a list of characters. -/

namespace Sys2Proof

/-- One hexadecimal digit. -/
def hexDigit (n : Nat) : Char :=
  ['0', '1', '2', '3', '4', '5', '6', '7', '8', '9', 'A', 'B', 'C', 'D', 'E', 'F'].getD n '0'

/-- `$nn`. -/
def byteText (b : Byte) : List Char := ['$', hexDigit (b.toNat / 16), hexDigit (b.toNat % 16)]

/-- `$nnnn`. -/
def addrText (w : Addr) : List Char := byteText (highByte w) ++ (byteText (lowByte w)).tail

/-- The upper-case three-letter mnemonics of the source (R100). -/
def Operation.text : Operation → List Char
  | .adc => ['A', 'D', 'C'] | .and => ['A', 'N', 'D'] | .asl => ['A', 'S', 'L'] | .cmp => ['C', 'M', 'P']
  | .bit => ['B', 'I', 'T'] | .lda => ['L', 'D', 'A'] | .bcc => ['B', 'C', 'C'] | .bcs => ['B', 'C', 'S']
  | .beq => ['B', 'E', 'Q'] | .bne => ['B', 'N', 'E'] | .bmi => ['B', 'M', 'I'] | .bpl => ['B', 'P', 'L']
  | .bvc => ['B', 'V', 'C'] | .bvs => ['B', 'V', 'S']

/-- The operand an instruction carries, as one number: the byte, or the 16-bit address. -/
def Instr.operandWord : Instr → Addr
  | .aslAcc => 0
  | .adcAbs w | .adcAbsx w | .adcAbsy w | .andAbs w | .andAbsx w | .andAbsy w | .aslAbs w | .aslAbsx w
  | .cmpAbs w | .cmpAbsx w | .cmpAbsy w | .bitAbs w | .ldaAbs w | .ldaAbsx w | .ldaAbsy w => w
  | .adcImm b | .adcZp b | .adcZpx b | .adcIndx b | .adcIndy b
  | .andImm b | .andZp b | .andZpx b | .andIndx b | .andIndy b | .aslZp b | .aslZpx b
  | .cmpImm b | .cmpZp b | .cmpZpx b | .cmpIndx b | .cmpIndy b | .bitZp b
  | .ldaImm b | .ldaZp b | .ldaZpx b | .ldaIndx b | .ldaIndy b
  | .bcc b | .bcs b | .beq b | .bne b | .bmi b | .bpl b | .bvc b | .bvs b => zext16 b

/-- The operand part of the text (R100), for an instruction whose opcode is at `a`; a branch is written
with its target address. -/
def operandText (m : Mode) (w : Addr) (a : Addr) : List Char :=
  match m with
  | .acc => ['A']
  | .imm => '#' :: byteText (lowByte w)
  | .zp => byteText (lowByte w)
  | .zpx => byteText (lowByte w) ++ [',', 'X']
  | .abs => addrText w
  | .absx => addrText w ++ [',', 'X']
  | .absy => addrText w ++ [',', 'Y']
  | .indx => '(' :: (byteText (lowByte w) ++ [',', 'X', ')'])
  | .indy => '(' :: (byteText (lowByte w) ++ [')', ',', 'Y'])
  | .rel => addrText (a + 2 + sext16 (lowByte w))

/-- The text of an instruction whose opcode is at address `a`. -/
def Instr.text (i : Instr) (a : Addr) : List Char :=
  i.operation.text ++ (' ' :: operandText i.mode i.operandWord a)

/-- "the assembler stores the displacement `target - (address of opcode + 2)`, which must lie in
-128..127" (R100). DEDUCED (safe, log entry 14): the difference is taken modulo 65536, as the target of a
branch is (R192 (5)). -/
def branchDisplacement (a target : Addr) : Option Byte :=
  let d := target - (a + 2)
  if sext16 (lowByte d) = d then some (lowByte d) else none

end Sys2Proof
end

