-- ==== Sys2Proof/Machine/Engine.lean ====
section
/-! DEFINITION. The fetch-decode-execute engine as 43_fetch_decode_execute.md R200 writes it, for ANY legal
value of the two open parameters DECODE_TABLE and CYCLE_TABLE (00_scope.md R8): the addressing-mode
resolver reads its operand bytes at `pc` (41_addressing_modes.md R150 to R161), one table decides, and the
memory accesses are recorded in the order of 20_memory.md R74. `step` of Step.lean is this engine at the
default tables (a statement for the provers says so). -/

namespace Sys2Proof.Machine

/-- One one-byte memory access of the core (R66). -/
inductive Access where
  | read (addr : Addr)
  | write (addr : Addr) (value : Byte)
  deriving DecidableEq, Repr

/-- What a mode yields (R150, R151): the advanced `pc`, the effective address if there is one, and the
addresses it read, in order. -/
structure Resolved where
  pc    : Addr
  ea    : Option Addr
  reads : List Addr
  deriving DecidableEq, Repr

/-- The two operand bytes of an absolute mode at `pc`: low byte then high byte (R68, R157). -/
def operandWord (s : State) : Addr := joinBytes (s.read (s.pc + 1)) (s.read s.pc)

/-- The addressing-mode resolver, one line per rule R152 to R161. On entry `pc` is the address of the first
operand byte. The immediate's operand byte is read as data, at `ea` (R153); the relative mode is run only
when its branch is taken (R154) and yields the target as the new `pc`. -/
def resolve (m : Mode) (s : State) : Resolved :=
  match m with
  | .acc => { pc := s.pc, ea := none, reads := [] }
  | .imm => { pc := s.pc + 1, ea := some s.pc, reads := [] }
  | .rel => { pc := branchTarget s.pc (s.read s.pc), ea := none, reads := [s.pc] }
  | .zp => { pc := s.pc + 1, ea := some (eaZp (s.read s.pc)), reads := [s.pc] }
  | .zpx => { pc := s.pc + 1, ea := some (eaZpx (s.read s.pc) s), reads := [s.pc] }
  | .abs => { pc := s.pc + 2, ea := some (eaAbs (operandWord s)), reads := [s.pc, s.pc + 1] }
  | .absx => { pc := s.pc + 2, ea := some (eaAbsx (operandWord s) s), reads := [s.pc, s.pc + 1] }
  | .absy => { pc := s.pc + 2, ea := some (eaAbsy (operandWord s) s), reads := [s.pc, s.pc + 1] }
  | .indx =>
    let z := s.read s.pc + s.x
    { pc := s.pc + 1, ea := some (eaIndx (s.read s.pc) s), reads := [s.pc, zext16 z, zext16 (z + 1)] }
  | .indy =>
    let z := s.read s.pc
    { pc := s.pc + 1, ea := some (eaIndy z s), reads := [s.pc, zext16 z, zext16 (z + 1)] }

/-- The flag predicate of each branch (R181); a legal table gives it to branches only (D3). -/
def Operation.predicate (o : Operation) (p : Status) : Bool :=
  match o with
  | .bpl => !p.n | .bmi => p.n | .bvc => !p.v | .bvs => p.v
  | .bcc => !p.c | .bcs => p.c | .bne => !p.z | .beq => p.z
  | .adc | .and | .asl | .cmp | .bit | .lda => false

/-- "apply oper to (A, M, P)" and write back (R200), `m` the operand and `ea` where it came from (`none`
for the accumulator). A branch is never applied: a legal table gives it mode REL only (D3, log entry 10). -/
def Operation.apply (o : Operation) (ea : Option Addr) (m : Byte) (s : State) : State :=
  match o with
  | .adc => applyAdc m s
  | .and => applyAnd m s
  | .asl =>
    match ea with
    | none => applyAslAcc s
    | some addr => applyAslMem addr s
  | .cmp => applyCmp m s
  | .bit => applyBit m s
  | .lda => applyLda m s
  | .bcc | .bcs | .beq | .bne | .bmi | .bpl | .bvc | .bvs => s

/-- The operand of R122: the byte at the effective address, or `A` where there is none. -/
def operandAt (ea : Option Addr) (s : State) : Byte :=
  match ea with
  | none => s.a
  | some addr => s.read addr

/-- The data accesses after the operand and pointer bytes (R74 (4) and (5), R67): the data read and, for
ASL in a memory form, the one data write. -/
def dataAccesses (o : Operation) (ea : Option Addr) (m : Byte) : List Access :=
  match ea with
  | none => []
  | some addr => .read addr :: (if o = .asl then [.write addr (aslResult m)] else [])

/-- What one `step` call does: the value it returns, the state it leaves, the accesses it makes. -/
structure Call where
  result   : StepResult
  after    : State
  accesses : List Access
  deriving DecidableEq, Repr

/-- A call that ends with result `r` in state `t`. -/
def Call.finish (r : StepResult) (t : State) (accesses : List Access) : Call :=
  { result := r, after := t.respond r, accesses := accesses }

/-- `step()` of R200 for the tables `T`. -/
def engineCall (T : Tables) (s : State) : Call :=
  let op := s.read s.pc
  let s1 := s.advance 1
  match T.rows.lookup op with
  | none => Call.finish (.invalidOpcode op s.pc) s1 [.read s.pc]
  | some row =>
    if row.mode = .rel then
      if Operation.predicate row.operation s1.p then
        let r := resolve .rel s1
        Call.finish (.ok row.cycles) (s1.setPc r.pc) (.read s.pc :: r.reads.map Access.read)
      else
        Call.finish (.ok row.cycles) (s1.advance 1) [.read s.pc]
    else
      let r := resolve row.mode s1
      let m := operandAt r.ea s1
      Call.finish (.ok row.cycles) (Operation.apply row.operation r.ea m (s1.setPc r.pc))
        (.read s.pc :: (r.reads.map Access.read ++ dataAccesses row.operation r.ea m))

end Sys2Proof.Machine
end

