-- ==== Sys2Proof/Machine/HostPort.lean ====
section
/-! DEFINITION. The host's side of the interface: the transactions of 43_fetch_decode_execute.md R209
("These are the whole interface"), loading (70_reset_and_hazards.md R267), introspection (R269) and the
drivers of R272 and R239, which are not part of the hardware (R212). -/

namespace Sys2Proof.Machine

/-- No `step` call has been made since construction: the only time the host may write memory (R268, D17). -/
def State.beforeFirstStep (s : State) : Bool := s.response.isNone

/-- The last `step` call returned InvalidOpcode. -/
def State.failed (s : State) : Bool :=
  match s.response with
  | some (.invalidOpcode _ _) => true
  | some (.ok _) | none => false

/-- The loader's writes, in order (R267), onto a constructed core. -/
def State.load (s : State) : List (Addr × Byte) → State
  | [] => s
  | (addr, v) :: rest => (s.write addr v).load rest

/-- The launch state of a run: "registers as rule R260, memory an arbitrary 65536-byte image chosen by the
host" (R267). -/
def launch (image : List (Addr × Byte)) : State := State.reset.load image

/-- The six registers as the host's read-only accessors give them (R269); `p` through `as_byte()`. -/
structure RegisterView where
  pc : Addr
  sp : Byte
  a  : Byte
  x  : Byte
  y  : Byte
  p  : Byte
  deriving DecidableEq, Repr

/-- The accessors of R269. -/
def State.registers (s : State) : RegisterView :=
  { pc := s.pc, sp := s.sp, a := s.a, x := s.x, y := s.y, p := s.p.asByte }

/-- The transactions of R209. -/
inductive Transaction where
  | construct
  | read (addr : Addr)
  | write (addr : Addr) (value : Byte)
  | step
  | registers
  | flag (f : Flag)
  deriving DecidableEq, Repr

/-- What a transaction answers. -/
inductive Reply where
  | done
  | byte (b : Byte)
  | stepped (r : StepResult)
  | registers (v : RegisterView)
  | flag (b : Bool)
  deriving DecidableEq, Repr

/-- One transaction on a core that has been constructed: the state after it and its reply, or `none` where the
spec gives it no meaning. That is a host write after the first `step` call (R268: "a model has no move for
it") and a second construction ("A model has no reset transition after the initial state", R261). -/
def transactOn (s : State) (t : Transaction) : Option (State × Reply) :=
  match t with
  | .construct => none
  | .read addr => some (s, .byte (s.read addr))
  | .write addr v => if s.beforeFirstStep then some (s.write addr v, .done) else none
  | .step =>
    match step s with
    | .next u => u.response.map fun r => (u, .stepped r)
    | .fault _ | .refused _ => none
  | .registers => some (s, .registers s.registers)
  | .flag f => some (s, .flag (s.p.get f))

/-- One transaction of a session with one core, `none` standing for a core not yet constructed: construction "is
the host's first act" (R266) and happens once (R261). To start again the host builds a new instance, which is
another session. -/
def transact (core : Option State) (t : Transaction) : Option (State × Reply) :=
  match core, t with
  | none, .construct => some (State.reset, .done)
  | none, .read _ | none, .write _ _ | none, .step | none, .registers | none, .flag _ => none
  | some s, t => transactOn s t

/-- The reference driver `RUN(n)` (R272): "call `step` until it returns InvalidOpcode or until `n` steps
have returned `Ok`"; the state after the last call. -/
def runStrict : Nat → State → State
  | 0, s => s
  | n + 1, s =>
    match step s with
    | .next t => if t.failed then t else runStrict n t
    | .fault _ | .refused _ => s

/-- The sum of the counts that the successful steps of `RUN(n)` returned (R244: "A driver that wants a
total adds the returned values itself"). -/
def runCycles : Nat → State → Nat
  | 0, _ => 0
  | n + 1, s =>
    match step s with
    | .next t =>
      match t.response with
      | some (.ok cycles) => cycles + runCycles n t
      | some (.invalidOpcode _ _) | none => 0
    | .fault _ | .refused _ => 0

/-- A lenient driver (R239): it calls `step` `n` times, whatever each call returns, so that an unmapped byte
"has acted as a one-byte no-op". -/
def runLenient : Nat → State → State
  | 0, s => s
  | n + 1, s =>
    match step s with
    | .next t => runLenient n t
    | .fault _ | .refused _ => s

end Sys2Proof.Machine
end

