-- ==== Sys2Proof/Safety.lean ====
section
/-! DEFINITION. The terms claims use: the states a run can reach, and the invariants of the machine. -/

namespace Sys2Proof.Machine

/-- The states reachable from reset: a launch state (any memory image the host loads, R267) and whatever
`step` calls make of it, under any driver. -/
inductive Reachable : State → Prop where
  | launch (image : List (Addr × Byte)) : Reachable (launch image)
  | step {s t : State} : Reachable s → step s = .next t → Reachable t

/-- The states a session of host transactions can be in (43_fetch_decode_execute.md R209), from the construction
of the core on. -/
inductive Hosted : State → Prop where
  | construct {s : State} {r : Reply} : transact none .construct = some (s, r) → Hosted s
  | next {s u : State} {t : Transaction} {r : Reply} :
      Hosted s → transact (some s) t = some (u, r) → Hosted u

/-- The memory is in its canonical form (`Memory.wf`): what makes equal memories equal data. -/
def State.Canonical (s : State) : Prop := s.mem.wf = true

/-- The state that nothing in profile CORE14 writes is at its reset value: `X = Y = SP = 0x00`
(10_state.md R27) and bits 5, 4, 3 and 2 of `P` are zero (R34). -/
def State.InertAtReset (s : State) : Prop :=
  s.x = 0x00 ∧ s.y = 0x00 ∧ s.sp = 0x00 ∧ s.p.asByte &&& 0x3C = 0x00

end Sys2Proof.Machine
end

