-- ==== Sys2Proof/Certificates/Slice0/Obligations.lean ====
section
/-! DEFINITION. The statements for the provers, def Obligations.<Name> : Prop, and the helpers they are
written with. A statement over all forms of an operation has no hypothesis: it is a conjunction over the
forms, for every state and every operand. The state that `exec` is given has `pc` at the first operand
byte (43_fetch_decode_execute.md R200). Log entries are notes/assumptions/<n>.md. -/

namespace Sys2Proof.Claims

open Sys2Proof.Machine

/-- The registers no instruction of the profile writes, and the returned value, are unchanged. -/
def InertSame (s t : State) : Prop :=
  t.x = s.x ∧ t.y = s.y ∧ t.sp = s.sp ∧ t.response = s.response

/-- Every byte of memory reads as before. -/
def MemSame (s t : State) : Prop := ∀ addr : Addr, t.read addr = s.read addr

/-- Every byte of memory but the one at `ea` reads as before. -/
def MemSameBut (ea : Addr) (s t : State) : Prop := ∀ addr : Addr, addr ≠ ea → t.read addr = s.read addr

/-- Every flag outside `fs` is unchanged. -/
def FlagsSameBut (fs : List Flag) (s t : State) : Prop := ∀ f : Flag, f ∉ fs → t.p.get f = s.p.get f

/-- Z and N derived from the byte `r` (R121). -/
def ZnOf (r : Byte) (t : State) : Prop := (t.p.z = true ↔ r.toNat = 0) ∧ (t.p.n = true ↔ 128 ≤ r.toNat)

/-- ADC in one form with opcode `op`, `n` operand bytes and operand `m`: it completes, with the sum in `A`,
the four flags of R123, and nothing else changed but `pc`, which moves past the operand bytes. -/
def AdcForm (op : Byte) (i : Instr) (n : Nat) (m : Byte) (s : State) : Prop :=
  (encode i).head? = some op ∧
  ∃ t, exec i s = .next t ∧
    t.a.toNat = (s.a.toNat + m.toNat + s.p.c.toNat) % 256 ∧
    (t.p.c = true ↔ 255 < s.a.toNat + m.toNat + s.p.c.toNat) ∧
    (t.p.v = true ↔ s.a.msb = m.msb ∧ t.a.msb ≠ s.a.msb) ∧
    ZnOf t.a t ∧ FlagsSameBut [.negative, .overflow, .zero, .carry] s t ∧
    t.pc.toNat = (s.pc.toNat + n) % 65536 ∧ InertSame s t ∧ MemSame s t

/-- AND in one form (R126). -/
def AndForm (op : Byte) (i : Instr) (n : Nat) (m : Byte) (s : State) : Prop :=
  (encode i).head? = some op ∧
  ∃ t, exec i s = .next t ∧
    (∀ k < 8, t.a.getLsbD k = (s.a.getLsbD k && m.getLsbD k)) ∧
    ZnOf t.a t ∧ FlagsSameBut [.negative, .zero] s t ∧
    t.pc.toNat = (s.pc.toNat + n) % 65536 ∧ InertSame s t ∧ MemSame s t

/-- CMP in one form (R129): only flags are written. -/
def CmpForm (op : Byte) (i : Instr) (n : Nat) (m : Byte) (s : State) : Prop :=
  (encode i).head? = some op ∧
  ∃ t, exec i s = .next t ∧
    (t.p.c = true ↔ m.toNat ≤ s.a.toNat) ∧ (t.p.z = true ↔ s.a = m) ∧
    (t.p.n = true ↔ 128 ≤ (s.a.toNat + 256 - m.toNat) % 256) ∧
    FlagsSameBut [.negative, .zero, .carry] s t ∧ t.a = s.a ∧
    t.pc.toNat = (s.pc.toNat + n) % 65536 ∧ InertSame s t ∧ MemSame s t

/-- BIT in one form (R130): only flags are written. -/
def BitForm (op : Byte) (i : Instr) (n : Nat) (m : Byte) (s : State) : Prop :=
  (encode i).head? = some op ∧
  ∃ t, exec i s = .next t ∧
    (t.p.z = true ↔ ∀ k < 8, ¬ (s.a.getLsbD k = true ∧ m.getLsbD k = true)) ∧
    (t.p.v = true ↔ 64 ≤ m.toNat % 128) ∧ (t.p.n = true ↔ 128 ≤ m.toNat) ∧
    FlagsSameBut [.negative, .overflow, .zero] s t ∧ t.a = s.a ∧
    t.pc.toNat = (s.pc.toNat + n) % 65536 ∧ InertSame s t ∧ MemSame s t

/-- LDA in one form (R131). -/
def LdaForm (op : Byte) (i : Instr) (n : Nat) (m : Byte) (s : State) : Prop :=
  (encode i).head? = some op ∧
  ∃ t, exec i s = .next t ∧ t.a = m ∧ ZnOf m t ∧ FlagsSameBut [.negative, .zero] s t ∧
    t.pc.toNat = (s.pc.toNat + n) % 65536 ∧ InertSame s t ∧ MemSame s t

/-- The shift of a byte `m` to a byte `r` and its three flags (R127). -/
def ShiftLeft (m r : Byte) (s t : State) : Prop :=
  r.toNat = (2 * m.toNat) % 256 ∧ (t.p.c = true ↔ 128 ≤ m.toNat) ∧ ZnOf r t ∧
    FlagsSameBut [.negative, .zero, .carry] s t

/-- ASL in one memory form, the byte at `ea` shifted in place (R128). -/
def AslMemForm (op : Byte) (i : Instr) (n : Nat) (ea : Addr) (s : State) : Prop :=
  (encode i).head? = some op ∧
  ∃ t, exec i s = .next t ∧ ShiftLeft (s.read ea) (t.read ea) s t ∧ t.a = s.a ∧
    t.pc.toNat = (s.pc.toNat + n) % 65536 ∧ InertSame s t ∧ MemSameBut ea s t

/-- A branch with opcode `op`, predicate `taken` and displacement `d`: it completes, and only `pc` changes,
to the target of R154 (computed in the integers, modulo 65536) or past the displacement byte. -/
def BranchForm (op : Byte) (i : Instr) (taken : Prop) (d : Byte) (s : State) : Prop :=
  (encode i).head? = some op ∧
  ∃ t, exec i s = .next t ∧
    (taken → (t.pc.toNat : Int) = ((s.pc.toNat : Int) + 1 + d.toInt) % 65536) ∧
    (¬ taken → t.pc.toNat = (s.pc.toNat + 1) % 65536) ∧
    t.a = s.a ∧ t.p = s.p ∧ InertSame s t ∧ MemSame s t

/-- The last byte that a list of writes left at an address, 0x00 where it wrote none (R62). -/
def lastWritten (addr : Addr) : List (Addr × Byte) → Byte
  | [] => 0x00
  | w :: rest => if ∃ v ∈ rest, v.1 = addr then lastWritten addr rest else if w.1 = addr then w.2 else 0x00

/-- The operation and mode the `aaabbbcc` pattern gives an opcode byte (R97). -/
def patternEntry (op : Byte) : Option (Operation × Mode) :=
  let aaa := op.toNat / 32
  let bbb := op.toNat / 4 % 8
  let oper? : Option Operation :=
    if aaa = 1 then some .and else if aaa = 3 then some .adc else if aaa = 5 then some .lda
    else if aaa = 6 then some .cmp else none
  let branches : List Operation := [.bpl, .bmi, .bvc, .bvs, .bcc, .bcs, .bne, .beq]
  match op.toNat % 4 with
  | 1 =>
    oper?.map fun o => (o, ([.indx, .zp, .imm, .abs, .indy, .zpx, .absy, .absx] : List Mode).getD bbb .imm)
  | 2 =>
    if aaa = 0 then
      match bbb with
      | 1 => some (.asl, .zp) | 2 => some (.asl, .acc) | 3 => some (.asl, .abs)
      | 5 => some (.asl, .zpx) | 7 => some (.asl, .absx) | _ => none
    else none
  | 0 =>
    if aaa = 1 ∧ bbb = 1 then some (.bit, .zp) else if aaa = 1 ∧ bbb = 3 then some (.bit, .abs)
    else if bbb = 4 then (branches[aaa]?).map fun o => (o, .rel)
    else none
  | _ => none

/-- The base cycle count of each operation in each mode: the grid of R274 (0 for a blank cell). -/
def gridCycles (o : Operation) (m : Mode) : Nat :=
  match o, m with
  | .asl, .acc => 2 | .asl, .zp => 5 | .asl, .zpx => 6 | .asl, .abs => 6 | .asl, .absx => 7
  | .bit, .zp => 3 | .bit, .abs => 4
  | .adc, m | .and, m | .cmp, m | .lda, m =>
    match m with
    | .imm => 2 | .zp => 3 | .zpx => 4 | .abs => 4 | .absx => 4 | .absy => 4 | .indx => 6 | .indy => 5
    | .acc | .rel => 0
  | .bcc, .rel | .bcs, .rel | .beq, .rel | .bne, .rel | .bmi, .rel | .bpl, .rel | .bvc, .rel | .bvs, .rel => 2
  | _, _ => 0

/-- The flags each operation writes: the table of R40. -/
def flagsWritten : Operation → List Flag
  | .adc => [.negative, .overflow, .zero, .carry]
  | .and | .lda => [.negative, .zero]
  | .asl | .cmp => [.negative, .zero, .carry]
  | .bit => [.negative, .overflow, .zero]
  | .bcc | .bcs | .beq | .bne | .bmi | .bpl | .bvc | .bvs => []

/-- The predicate of each branch mnemonic as a fact about one flag: the table of R181. -/
def branchTaken (o : Operation) (p : Status) : Prop :=
  match o with
  | .bpl => p.n = false | .bmi => p.n = true | .bvc => p.v = false | .bvs => p.v = true
  | .bcc => p.c = false | .bcs => p.c = true | .bne => p.z = false | .beq => p.z = true
  | .adc | .and | .asl | .cmp | .bit | .lda => False

/-- The map of opcode bytes to operations and modes that a table holds, its DECODE_TABLE (R8). -/
def decodeTable (T : Tables) (op : Byte) : Option (Operation × Mode) :=
  (T.rows.lookup op).map fun r => (r.operation, r.mode)

/-- The seven architectural items of R20 are equal; the returned value may differ. -/
def SameArchitecture (s t : State) : Prop :=
  t.pc = s.pc ∧ t.sp = s.sp ∧ t.a = s.a ∧ t.x = s.x ∧ t.y = s.y ∧ t.p = s.p ∧ t.mem = s.mem

/-- The six registers are equal. -/
def SameRegisters (s t : State) : Prop :=
  t.pc = s.pc ∧ t.sp = s.sp ∧ t.a = s.a ∧ t.x = s.x ∧ t.y = s.y ∧ t.p = s.p

end Sys2Proof.Claims

open Sys2Proof Sys2Proof.Machine Sys2Proof.Claims

/-! ### State and reset -/

/-- R41, R260: after construction every register, flag and memory byte is zero. -/
def Obligations.ResetZeroesRegistersFlagsAndMemory : Prop :=
  State.reset.pc = 0x0000 ∧ State.reset.sp = 0x00 ∧ State.reset.a = 0x00 ∧ State.reset.x = 0x00 ∧
  State.reset.y = 0x00 ∧ State.reset.p.asByte = 0x00 ∧ (∀ f : Flag, State.reset.p.get f = false) ∧
  ∀ addr : Addr, State.reset.read addr = 0x00

/-- R35: `get(flag)` is the flag's bit of the status byte, at the position R30 gives it. -/
def Obligations.GetReadsTheFlagsBit : Prop :=
  (∀ (p : Status) (f : Flag), p.get f = p.asByte.getLsbD f.bit) ∧
  Flag.negative.bit = 7 ∧ Flag.overflow.bit = 6 ∧ Flag.unused.bit = 5 ∧ Flag.break.bit = 4 ∧
  Flag.decimal.bit = 3 ∧ Flag.interruptDisable.bit = 2 ∧ Flag.zero.bit = 1 ∧ Flag.carry.bit = 0

/-- R36: `set` and `clear` make exactly the named bit 1 or 0, and every flag rule of the ALU is two-sided: the
value it writes does not depend on what the flag held, so no path leaves it. ADC reads the carry, so its
own C is given outright: set exactly when the sum exceeds 255, clear otherwise. -/
def Obligations.SetAndClearChangeOneFlag : Prop :=
  (∀ (p : Status) (f : Flag), (p.set f).get f = true ∧ (p.clear f).get f = false) ∧
  (∀ (p : Status) (f g : Flag), g ≠ f → (p.set f).get g = p.get g ∧ (p.clear f).get g = p.get g) ∧
  (∀ (p : Status) (f : Flag) (b : Bool), p.put f b = if b = true then p.set f else p.clear f) ∧
  (∀ (a m : Byte) (p q : Status) (f : Flag),
    (f ∈ flagsWritten .adc → p.c = q.c → (adcFlags a m p).get f = (adcFlags a m q).get f) ∧
    (adcFlags a m p).get .carry = decide (255 < a.toNat + m.toNat + p.c.toNat) ∧
    (f ∈ flagsWritten .and → (p.zn m).get f = (q.zn m).get f) ∧
    (f ∈ flagsWritten .asl → (aslFlags m p).get f = (aslFlags m q).get f) ∧
    (f ∈ flagsWritten .cmp → (cmpFlags a m p).get f = (cmpFlags a m q).get f) ∧
    (f ∈ flagsWritten .bit → (bitFlags a m p).get f = (bitFlags a m q).get f))

/-- R39: the status register and its byte are in one-to-one correspondence. -/
def Obligations.StatusByteRoundTrip : Prop :=
  (∀ s : Status, Status.fromByte (Status.asByte s) = s) ∧
  ∀ b : Byte, Status.asByte (Status.fromByte b) = b

/-- R37, R38 (D10, D12: the spec's decisions): the packed byte is the weighted sum, bit 5 not forced, and
`from_byte` sets flag `i` to bit `i`. -/
def Obligations.StatusPacksByWeight : Prop :=
  (∀ p : Status, p.asByte.toNat = p.n.toNat * 128 + p.v.toNat * 64 + p.u.toNat * 32 + p.b.toNat * 16 +
    p.d.toNat * 8 + p.i.toNat * 4 + p.z.toNat * 2 + p.c.toNat) ∧
  ∀ (b : Byte) (f : Flag), (Status.fromByte b).get f = b.getLsbD f.bit

/-! ### Memory -/

/-- R62, R63: a read returns the byte most recently written at the address, 0x00 if nothing was written
since construction; a write changes that one byte and nothing else. -/
def Obligations.MemoryReadsTheLastWrite : Prop :=
  (∀ (image : List (Addr × Byte)) (addr : Addr), (launch image).read addr = lastWritten addr image) ∧
  ∀ (m : Memory) (addr b : Addr) (v : Byte),
    (m.write addr v).read addr = v ∧ (b ≠ addr → (m.write addr v).read b = m.read b)

/-- The model's own form of memory (log entry 9): canonical memories that read alike are equal data. -/
def Obligations.CanonicalMemoriesThatReadAlikeAreEqual : Prop :=
  ∀ m m' : Memory, m.wf = true → m'.wf = true → (∀ addr : Addr, m.read addr = m'.read addr) → m = m'

/-! ### Encoding -/

/-- R94, R97: every one of the 256 bytes is mapped exactly as the `aaabbbcc` pattern says; 47 are mapped.
The byte values are general knowledge (log entry 1, D3). -/
def Obligations.OpcodeMapFollowsTheBitPattern : Prop :=
  (∀ op : Byte, decodeTable core14 op = patternEntry op) ∧ core14Rows.length = 47

/-- R98, R230: an unmapped byte at `pc` ends the step in InvalidOpcode, at decode, before any operand
fetch, and nothing else does; 209 byte values are unmapped. -/
def Obligations.UnmappedBytesAndOnlyTheyAreInvalidOpcode : Prop :=
  (∀ s : State, ∃ t, step s = .next t ∧
    ((∃ op addr, t.response = some (.invalidOpcode op addr)) ↔ core14Rows.lookup (s.read s.pc) = none)) ∧
  (∀ s : State, core14Rows.lookup (s.read s.pc) = none →
    (engineCall core14 s).accesses = [.read s.pc]) ∧
  ((List.range 256).filter fun n => (core14Rows.lookup (BitVec.ofNat 8 n)).isNone).length = 209

/-- R100's table of examples, its bytes written out, decodes to the instructions it names (D3, D20). -/
def Obligations.ExampleWordsDecode : Prop :=
  decode [0x0A] = .ok (.aslAcc, []) ∧
  decode [0xA9, 0x10] = .ok (.ldaImm 0x10, []) ∧
  decode [0xA5, 0x10] = .ok (.ldaZp 0x10, []) ∧
  decode [0xB5, 0x10] = .ok (.ldaZpx 0x10, []) ∧
  decode [0xAD, 0x34, 0x12] = .ok (.ldaAbs 0x1234, []) ∧
  decode [0xBD, 0x34, 0x12] = .ok (.ldaAbsx 0x1234, []) ∧
  decode [0xB9, 0x34, 0x12] = .ok (.ldaAbsy 0x1234, []) ∧
  decode [0xA1, 0x10] = .ok (.ldaIndx 0x10, []) ∧
  decode [0xB1, 0x10] = .ok (.ldaIndy 0x10, []) ∧
  decode [0xD0, 0xFA] = .ok (.bne 0xFA, [])

/-- Decoding undoes encoding, for every instruction and every operand, whatever bytes follow. -/
def Obligations.DecodeUndoesEncode : Prop :=
  ∀ (i : Instr) (rest : List Byte), decode (encode i ++ rest) = .ok (i, rest)

/-- Encoding undoes decoding: each accepted list of bytes is the encoding of what it decodes to, so two
encodings never mean one instruction. -/
def Obligations.EncodeUndoesDecode : Prop :=
  ∀ (bs rest : List Byte) (i : Instr), decode bs = .ok (i, rest) → bs = encode i ++ rest

/-- R207, R99: the operation, the mode and whether a byte decodes at all depend on the opcode byte alone; no
operand byte is illegal. The same at the machine: whatever the state and address. -/
def Obligations.DecodeReadsOnlyTheOpcodeByte : Prop :=
  (∀ (op b1 b2 c1 c2 : Byte) (rest rest' : List Byte),
    (decode (op :: b1 :: b2 :: rest)).map (fun r => (r.1.operation, r.1.mode)) =
      (decode (op :: c1 :: c2 :: rest')).map (fun r => (r.1.operation, r.1.mode))) ∧
  (∀ s s' : State, s.read s.pc = s'.read s'.pc →
    (decode (fetchWindow s)).map (fun r => (r.1.operation, r.1.mode)) =
      (decode (fetchWindow s')).map (fun r => (r.1.operation, r.1.mode))) ∧
  ∀ (op b1 b2 : Byte) (rest : List Byte), core14Rows.lookup op ≠ none →
    ∃ r, decode (op :: b1 :: b2 :: rest) = .ok r

/-- R92, R90: the mode's format gives the length, 1 to 3 bytes, and decoding consumes that many. -/
def Obligations.ModeFormatGivesTheLength : Prop :=
  ∀ (bs rest : List Byte) (i : Instr), decode bs = .ok (i, rest) →
    bs.length = i.mode.format.length + rest.length ∧
    1 ≤ i.mode.format.length ∧ i.mode.format.length ≤ 3

/-! ### Addressing modes -/

/-- R152, R153: ACC has no address, leaves `pc`, takes `A` as operand and gives its result to `A`; IMM's
address is that of the operand byte, which is read there, and `pc` moves past it. -/
def Obligations.AccumulatorAndImmediateModes : Prop :=
  ∀ s : State,
    (resolve .acc s).pc = s.pc ∧ (resolve .acc s).ea = none ∧ operandAt (resolve .acc s).ea s = s.a ∧
    (Operation.apply .asl (resolve .acc s).ea s.a s).a.toNat = (2 * s.a.toNat) % 256 ∧
    (resolve .imm s).ea = some s.pc ∧ (resolve .imm s).pc.toNat = (s.pc.toNat + 1) % 65536 ∧
    operandAt (resolve .imm s).ea s = s.read s.pc

/-- R154: the relative target, the displacement read as a signed byte and added after `pc` has passed it,
modulo 65536. -/
def Obligations.RelativeTargetIsSignedFromTheNextInstruction : Prop :=
  ∀ s : State, ∃ d : Int,
    d = (if (s.read s.pc).toNat < 128 then ((s.read s.pc).toNat : Int) else (s.read s.pc).toNat - 256) ∧
    ((resolve .rel s).pc.toNat : Int) = ((s.pc.toNat : Int) + 1 + d) % 65536

/-- R155, R156 (D2, D6; log entry 4): zero-page addresses; the indexed sum wraps inside the page. -/
def Obligations.ZeroPageModes : Prop :=
  ∀ s : State, ∃ e e' : Addr,
    (resolve .zp s).ea = some e ∧ e.toNat = (s.read s.pc).toNat ∧
    (resolve .zp s).pc.toNat = (s.pc.toNat + 1) % 65536 ∧
    (resolve .zpx s).ea = some e' ∧ e'.toNat = ((s.read s.pc).toNat + s.x.toNat) % 256 ∧
    (resolve .zpx s).pc.toNat = (s.pc.toNat + 1) % 65536

/-- R157, R158, R159 (D2, D5; log entries 3 and 4): the two operand bytes are little-endian, the index is
added modulo 65536, and `pc` moves past both. -/
def Obligations.AbsoluteModes : Prop :=
  ∀ s : State, ∃ e ex ey : Addr,
    (resolve .abs s).ea = some e ∧
    e.toNat = (s.read (s.pc + 1)).toNat * 256 + (s.read s.pc).toNat ∧
    (resolve .absx s).ea = some ex ∧ ex.toNat = (e.toNat + s.x.toNat) % 65536 ∧
    (resolve .absy s).ea = some ey ∧ ey.toNat = (e.toNat + s.y.toNat) % 65536 ∧
    (resolve .abs s).pc.toNat = (s.pc.toNat + 2) % 65536 ∧ (resolve .absx s).pc = (resolve .abs s).pc ∧
    (resolve .absy s).pc = (resolve .abs s).pc

/-- R160, R161 (D2, D5, D6; log entries 3 and 4): the pointer is two bytes of the zero page, the second
wrapping inside the page; `X` is added before the pointer is read, `Y` after, modulo 65536. -/
def Obligations.IndirectModes : Prop :=
  ∀ s : State, ∃ ex ey : Addr,
    (resolve .indx s).ea = some ex ∧
    ex.toNat =
      (s.read (BitVec.ofNat 16 (((s.read s.pc).toNat + s.x.toNat + 1) % 256))).toNat * 256 +
        (s.read (BitVec.ofNat 16 (((s.read s.pc).toNat + s.x.toNat) % 256))).toNat ∧
    (resolve .indy s).ea = some ey ∧
    ey.toNat =
      ((s.read (BitVec.ofNat 16 (((s.read s.pc).toNat + 1) % 256))).toNat * 256 +
        (s.read (BitVec.ofNat 16 (s.read s.pc).toNat)).toNat + s.y.toNat) % 65536 ∧
    (resolve .indx s).pc.toNat = (s.pc.toNat + 1) % 65536 ∧
    (resolve .indy s).pc.toNat = (s.pc.toNat + 1) % 65536

/-! ### The ALU operations, every form -/

/-- R121: the common derivation `ZN(r)` writes Z and N from `r` and no other flag. -/
def Obligations.ZeroAndNegativeComeFromTheResult : Prop :=
  ∀ (p : Status) (r : Byte),
    ((p.zn r).z = true ↔ r = 0x00) ∧ (p.zn r).n = r.getLsbD 7 ∧
    ∀ f : Flag, f ≠ .zero → f ≠ .negative → (p.zn r).get f = p.get f

/-- R123, R124: ADC in each of its eight forms: completion, result, flags, frame, opcode (log entry 1).
The result does not depend on the Decimal flag: no term of it mentions one. -/
def Obligations.AdcAddsWithCarryInEveryForm : Prop :=
  ∀ s : State,
    (∀ v, AdcForm 0x69 (.adcImm v) 1 v s) ∧ (∀ b, AdcForm 0x65 (.adcZp b) 1 (s.read (eaZp b)) s) ∧
    (∀ b, AdcForm 0x75 (.adcZpx b) 1 (s.read (eaZpx b s)) s) ∧
    (∀ w, AdcForm 0x6D (.adcAbs w) 2 (s.read (eaAbs w)) s) ∧
    (∀ w, AdcForm 0x7D (.adcAbsx w) 2 (s.read (eaAbsx w s)) s) ∧
    (∀ w, AdcForm 0x79 (.adcAbsy w) 2 (s.read (eaAbsy w s)) s) ∧
    (∀ b, AdcForm 0x61 (.adcIndx b) 1 (s.read (eaIndx b s)) s) ∧
    ∀ b, AdcForm 0x71 (.adcIndy b) 1 (s.read (eaIndy b s)) s

/-- R125: what ADC's flags mean: the unsigned sum does not fit, and the signed sum leaves -128..127. -/
def Obligations.AdcFlagsMeanUnsignedAndSignedOverflow : Prop :=
  ∀ (a m : Byte) (p : Status),
    (adcResult a m p.c).toNat = (a.toNat + m.toNat + p.c.toNat) % 256 ∧
    ((adcFlags a m p).c = true ↔ 255 < a.toNat + m.toNat + p.c.toNat) ∧
    ((adcFlags a m p).v = true ↔
      a.toInt + m.toInt + p.c.toNat < -128 ∨ 127 < a.toInt + m.toInt + p.c.toNat)

/-- R126: AND in each of its eight forms. -/
def Obligations.AndMasksTheAccumulatorInEveryForm : Prop :=
  ∀ s : State,
    (∀ v, AndForm 0x29 (.andImm v) 1 v s) ∧ (∀ b, AndForm 0x25 (.andZp b) 1 (s.read (eaZp b)) s) ∧
    (∀ b, AndForm 0x35 (.andZpx b) 1 (s.read (eaZpx b s)) s) ∧
    (∀ w, AndForm 0x2D (.andAbs w) 2 (s.read (eaAbs w)) s) ∧
    (∀ w, AndForm 0x3D (.andAbsx w) 2 (s.read (eaAbsx w s)) s) ∧
    (∀ w, AndForm 0x39 (.andAbsy w) 2 (s.read (eaAbsy w s)) s) ∧
    (∀ b, AndForm 0x21 (.andIndx b) 1 (s.read (eaIndx b s)) s) ∧
    ∀ b, AndForm 0x31 (.andIndy b) 1 (s.read (eaIndy b s)) s

/-- R126, corner cases (source V4): a second AND with the same operand changes neither `A` nor the flags. -/
def Obligations.AndIsIdempotent : Prop :=
  ∀ (m : Byte) (s : State), applyAnd m (applyAnd m s) = applyAnd m s

/-- R127: ASL of the accumulator. -/
def Obligations.AslShiftsTheAccumulator : Prop :=
  ∀ s : State, (encode .aslAcc).head? = some 0x0A ∧
    ∃ t, exec .aslAcc s = .next t ∧ ShiftLeft s.a t.a s t ∧ t.pc = s.pc ∧ InertSame s t ∧ MemSame s t

/-- R128 (D8; log entry 6): ASL of memory in each of its four forms: the byte at the effective address is
shifted in place and every other byte reads as before. -/
def Obligations.AslShiftsMemoryInEveryForm : Prop :=
  ∀ s : State,
    (∀ b, AslMemForm 0x06 (.aslZp b) 1 (eaZp b) s) ∧ (∀ b, AslMemForm 0x16 (.aslZpx b) 1 (eaZpx b s) s) ∧
    (∀ w, AslMemForm 0x0E (.aslAbs w) 2 (eaAbs w) s) ∧ ∀ w, AslMemForm 0x1E (.aslAbsx w) 2 (eaAbsx w s) s

/-- R129: CMP in each of its eight forms. -/
def Obligations.CmpSetsOnlyFlagsInEveryForm : Prop :=
  ∀ s : State,
    (∀ v, CmpForm 0xC9 (.cmpImm v) 1 v s) ∧ (∀ b, CmpForm 0xC5 (.cmpZp b) 1 (s.read (eaZp b)) s) ∧
    (∀ b, CmpForm 0xD5 (.cmpZpx b) 1 (s.read (eaZpx b s)) s) ∧
    (∀ w, CmpForm 0xCD (.cmpAbs w) 2 (s.read (eaAbs w)) s) ∧
    (∀ w, CmpForm 0xDD (.cmpAbsx w) 2 (s.read (eaAbsx w s)) s) ∧
    (∀ w, CmpForm 0xD9 (.cmpAbsy w) 2 (s.read (eaAbsy w s)) s) ∧
    (∀ b, CmpForm 0xC1 (.cmpIndx b) 1 (s.read (eaIndx b s)) s) ∧
    ∀ b, CmpForm 0xD1 (.cmpIndy b) 1 (s.read (eaIndy b s)) s

/-- R130: BIT in both of its forms. -/
def Obligations.BitTestsInBothForms : Prop :=
  ∀ s : State,
    (∀ b, BitForm 0x24 (.bitZp b) 1 (s.read (eaZp b)) s) ∧
    ∀ w, BitForm 0x2C (.bitAbs w) 2 (s.read (eaAbs w)) s

/-- R131: LDA in each of its eight forms. -/
def Obligations.LdaLoadsInEveryForm : Prop :=
  ∀ s : State,
    (∀ v, LdaForm 0xA9 (.ldaImm v) 1 v s) ∧ (∀ b, LdaForm 0xA5 (.ldaZp b) 1 (s.read (eaZp b)) s) ∧
    (∀ b, LdaForm 0xB5 (.ldaZpx b) 1 (s.read (eaZpx b s)) s) ∧
    (∀ w, LdaForm 0xAD (.ldaAbs w) 2 (s.read (eaAbs w)) s) ∧
    (∀ w, LdaForm 0xBD (.ldaAbsx w) 2 (s.read (eaAbsx w s)) s) ∧
    (∀ w, LdaForm 0xB9 (.ldaAbsy w) 2 (s.read (eaAbsy w s)) s) ∧
    (∀ b, LdaForm 0xA1 (.ldaIndx b) 1 (s.read (eaIndx b s)) s) ∧
    ∀ b, LdaForm 0xB1 (.ldaIndy b) 1 (s.read (eaIndy b s)) s

/-! ### Branches -/

/-- R184 to R191, R181 (D7, D3; log entries 1 and 5): each branch tests its flag and writes only `pc`. -/
def Obligations.EachBranchTestsItsFlag : Prop :=
  ∀ (s : State) (d : Byte),
    BranchForm 0x90 (.bcc d) (s.p.c = false) d s ∧ BranchForm 0xB0 (.bcs d) (s.p.c = true) d s ∧
    BranchForm 0xF0 (.beq d) (s.p.z = true) d s ∧ BranchForm 0xD0 (.bne d) (s.p.z = false) d s ∧
    BranchForm 0x30 (.bmi d) (s.p.n = true) d s ∧ BranchForm 0x10 (.bpl d) (s.p.n = false) d s ∧
    BranchForm 0x50 (.bvc d) (s.p.v = false) d s ∧ BranchForm 0x70 (.bvs d) (s.p.v = true) d s

/-- R180, R182, R183 as a whole step, for whatever predicate the branch has (R181 says which; the model's
is `Operation.predicate`) and `a` the address of the opcode: taken, the branch goes to `a + 2 + d` with `d` the
signed displacement; not taken, to `a + 2`; the displacement byte is read on the taken path only, and nothing
but `pc` is written. (`response`, the step's returned value, is the model's own, log entry 8.) -/
def Obligations.BranchStepsGoToTargetOrPastDisplacement : Prop :=
  ∀ (s : State) (o : Operation), decodeTable core14 (s.read s.pc) = some (o, .rel) →
    ∃ t, step s = .next t ∧
      (Operation.predicate o s.p = true →
        (t.pc.toNat : Int) = ((s.pc.toNat : Int) + 2 + (s.read (s.pc + 1)).toInt) % 65536 ∧
        (engineCall core14 s).accesses = [.read s.pc, .read (s.pc + 1)]) ∧
      (Operation.predicate o s.p = false → t.pc.toNat = (s.pc.toNat + 2) % 65536 ∧
        (engineCall core14 s).accesses = [.read s.pc]) ∧
      t.a = s.a ∧ t.x = s.x ∧ t.y = s.y ∧ t.sp = s.sp ∧ t.p = s.p ∧ MemSame s t

/-! ### The step -/

/-- A step runs the decoded instruction: if the bytes at `pc` decode to `i`, the step is `exec i` from the
state in which `pc` has advanced past the opcode byte, and then it returns `Ok` of the opcode's base cycle
count (R200; the returned value is held in `response`, log entry 8). -/
def Obligations.StepRunsTheDecodedInstruction : Prop :=
  ∀ (s : State) (i : Instr) (rest : List Byte), decode (fetchWindow s) = .ok (i, rest) →
    step s =
      match exec i { s with pc := s.pc + 1 } with
      | .next t => .next { t with response := some (.ok (baseCycles (s.read s.pc))) }
      | .fault r => .fault r
      | .refused r => .refused r

/-- R231, R232, R233, R238 (D9; log entry 7): the state after InvalidOpcode and what it reports. -/
def Obligations.InvalidOpcodeAdvancesPcAndNothingElse : Prop :=
  ∀ s : State, core14Rows.lookup (s.read s.pc) = none →
    ∃ t, step s = .next t ∧ t.pc.toNat = (s.pc.toNat + 1) % 65536 ∧
      t.response = some (.invalidOpcode (s.read s.pc) s.pc) ∧
      t.a = s.a ∧ t.x = s.x ∧ t.y = s.y ∧ t.sp = s.sp ∧ t.p = s.p ∧ MemSame s t

/-- R204: `step` is total: from every state it returns `Ok(cycles)` or InvalidOpcode, and may
be called again. That InvalidOpcode is answered as a next state is the model's choice (log entry 7), and so is
the field that holds the returned value (log entry 8). -/
def Obligations.StepAlwaysReturns : Prop :=
  ∀ s : State, ∃ t, step s = .next t ∧
    ((∃ cycles, t.response = some (.ok cycles)) ∨ ∃ op addr, t.response = some (.invalidOpcode op addr)) ∧
    ∃ u, step t = .next u

/-- The refinement: `step`, with its decoder and one meaning per instruction, is the engine of R200 that
resolves modes at `pc` and applies operations from one table, at the default DECODE_TABLE and CYCLE_TABLE. The
returned value is held in the model's own field (log entry 8). -/
def Obligations.StepIsTheTableDrivenEngine : Prop :=
  ∀ s : State, step s = .next (engineCall core14 s).after ∧
    (engineCall core14 s).after.response = some (engineCall core14 s).result

/-- R274, R275 (D15; log entry 2): a successful step returns the base count of its operation and mode, with
no page-crossing or branch-taken penalty. -/
def Obligations.StepReturnsTheBaseCycleCount : Prop :=
  ∀ (s : State) (i : Instr) (rest : List Byte), decode (fetchWindow s) = .ok (i, rest) →
    ∃ t, step s = .next t ∧ t.response = some (.ok (gridCycles i.operation i.mode))

/-- R205: the returned value is read by no rule: a step does not depend on what an earlier call returned. -/
def Obligations.ReturnedValueIsNeverRead : Prop :=
  ∀ (s : State) (r : Option StepResult), step { s with response := r } = step s

/-- R208: `pc` after each kind of step, with `a` the address of the opcode, modulo 65536. -/
def Obligations.PcAfterEachKindOfStep : Prop :=
  ∀ s : State, ∃ t, step s = .next t ∧
    match decodeTable core14 (s.read s.pc) with
    | none => t.pc = s.pc + 1
    | some (_, .acc) => t.pc = s.pc + 1
    | some (o, .rel) =>
      (branchTaken o s.p → t.pc = s.pc + 2 + (s.read (s.pc + 1)).signExtend 16) ∧
      (¬ branchTaken o s.p → t.pc = s.pc + 2)
    | some (_, m) => t.pc = s.pc + 1 + BitVec.ofNat 16 m.operandBytes

/-- R40: no step touches a flag outside its operation's row; InvalidOpcode touches none. -/
def Obligations.StepsWriteOnlyTheirFlags : Prop :=
  ∀ s t : State, step s = .next t → ∀ f : Flag,
    (match decodeTable core14 (s.read s.pc) with
      | none => True
      | some (o, _) => f ∉ flagsWritten o) →
    t.p.get f = s.p.get f

/-- R22: `X` and `Y` are written by no instruction and read only by the indexed modes (`X` by ZPX, ABSX and
INDX, `Y` by ABSY and INDY): elsewhere another value of the register changes nothing else. -/
def Obligations.IndexRegistersAreReadOnlyByIndexedModes : Prop :=
  (∀ s t : State, step s = .next t → t.x = s.x ∧ t.y = s.y) ∧
  (∀ (s t : State) (v : Byte), step s = .next t →
    (∀ o m, decodeTable core14 (s.read s.pc) = some (o, m) → m ≠ .zpx ∧ m ≠ .absx ∧ m ≠ .indx) →
    step { s with x := v } = .next { t with x := v }) ∧
  ∀ (s t : State) (v : Byte), step s = .next t →
    (∀ o m, decodeTable core14 (s.read s.pc) = some (o, m) → m ≠ .absy ∧ m ≠ .indy) →
    step { s with y := v } = .next { t with y := v }

/-- R23, R32, R33, R124, R236 (D10, D11; log entry 13): `SP` and the flags U, B, D and I are written and
read by no instruction: another value of one of them changes nothing else. -/
def Obligations.StackPointerAndUnusedFlagsAreInert : Prop :=
  ∀ s t : State, step s = .next t →
    t.sp = s.sp ∧ t.p.u = s.p.u ∧ t.p.b = s.p.b ∧ t.p.d = s.p.d ∧ t.p.i = s.p.i ∧
    (∀ v : Byte, step { s with sp := v } = .next { t with sp := v }) ∧
    ∀ (f : Flag) (b : Bool), f ∈ [Flag.unused, .break, .decimal, .interruptDisable] →
      step { s with p := s.p.put f b } = .next { t with p := t.p.put f b }

/-- R271, R76: instruction fetch is coherent: after a step that shifts the byte at `ea`, the next fetch sees
the shifted byte wherever it covers `ea`, and the old bytes elsewhere. That ASL writes its result back to
`ea` is the spec's decision D8 (log entry 6). -/
def Obligations.NextFetchSeesTheByteAslWrote : Prop :=
  ∀ (s t : State) (o : Operation) (m : Mode) (ea : Addr),
    decodeTable core14 (s.read s.pc) = some (o, m) → o = .asl →
    (resolve m (s.advance 1)).ea = some ea → step s = .next t →
    fetchWindow t = [t.pc, t.pc + 1, t.pc + 2].map fun addr =>
      if addr = ea then BitVec.ofNat 8 (2 * (s.read ea).toNat) else s.read addr

/-- R67: ASL in a memory form is the only writer of memory, and it writes at its effective address. -/
def Obligations.OnlyMemoryFormsOfAslWriteMemory : Prop :=
  ∀ (s t : State) (addr : Addr), step s = .next t → t.read addr ≠ s.read addr →
    ∃ m, decodeTable core14 (s.read s.pc) = some (.asl, m) ∧ m ≠ .acc ∧
      (resolve m (s.advance 1)).ea = some addr

/-! ### Invariants -/

/-- The invariant of the model's memory (log entry 9): every step keeps the canonical form. -/
def Obligations.StepKeepsMemoryCanonical : Prop :=
  ∀ s t : State, s.Canonical → step s = .next t → t.Canonical

/-- Both invariants hold at reset. The canonical form of memory is the model's own (log entry 9). -/
def Obligations.ResetIsCanonicalAndInert : Prop := State.reset.Canonical ∧ State.reset.InertAtReset

/-- R27, R34 as an invariant of one step, from every state: `X = Y = SP = 0` and `P & 0x3C = 0` are kept. -/
def Obligations.StepKeepsInertStateAtReset : Prop :=
  ∀ s t : State, s.InertAtReset → step s = .next t → t.InertAtReset

/-- R27, R34: in every state reachable from reset, with any memory image the host loads and under any
driver, `X = Y = SP = 0x00` and `P & 0x3C = 0`, and the memory is canonical (the form is the model's own, log
entry 9). -/
def Obligations.ReachableStatesKeepResetRegistersAndFlags : Prop :=
  ∀ s : State, Reachable s → s.InertAtReset ∧ s.Canonical

/-! ### The engine, for every legal DECODE_TABLE and CYCLE_TABLE -/

/-- R27 for any table: no instruction of any legal DECODE_TABLE writes `X`, `Y`, `SP` or the flags U, B, D
and I, an unmapped byte still only advances `pc`, and the memory stays canonical. The model's own here: the
canonical form of memory (log entry 9) and the field that holds the returned value (log entry 8); which tables
are legal is the spec's D3 (log entry 10). -/
def Obligations.AnyLegalTableKeepsInertState : Prop :=
  ∀ (T : Tables) (s : State),
    (engineCall T s).after.x = s.x ∧ (engineCall T s).after.y = s.y ∧ (engineCall T s).after.sp = s.sp ∧
    FlagsSameBut [.negative, .overflow, .zero, .carry] s (engineCall T s).after ∧
    (s.Canonical → (engineCall T s).after.Canonical) ∧
    (decodeTable T (s.read s.pc) = none →
      (engineCall T s).after = { s with pc := s.pc + 1, response := some (.invalidOpcode (s.read s.pc) s.pc) })

/-- R8, R274 (D15): no rule of the instruction semantics depends on CYCLE_TABLE: two tables with the same
DECODE_TABLE leave the same state and make the same accesses. -/
def Obligations.CycleTableChangesNoState : Prop :=
  ∀ (T T' : Tables) (s : State), (∀ op, decodeTable T op = decodeTable T' op) →
    SameArchitecture (engineCall T s).after (engineCall T' s).after ∧
    (engineCall T s).accesses = (engineCall T' s).accesses

/-- R74, R75 (D16): a call makes no write, or exactly one: its last access, right after a read of the same
address (ASL's read-modify-write), and that write is what the memory holds afterwards. -/
def Obligations.AtMostOneWriteAndItIsLast : Prop :=
  ∀ (T : Tables) (s : State), ∃ reads : List Addr,
    ((engineCall T s).accesses = reads.map Access.read ∧ MemSame s (engineCall T s).after) ∨
    ∃ addr v, (engineCall T s).accesses = reads.map Access.read ++ [.read addr, .write addr v] ∧
      (engineCall T s).after.read addr = v ∧ MemSameBut addr s (engineCall T s).after

/-- R203, R74 (D16): a call is a function of the registers and of the bytes it reads, and of nothing else:
two states with equal registers that agree on every byte the call reads make the same accesses, return the
same result and leave equal registers. -/
def Obligations.CallDependsOnlyOnTheBytesItReads : Prop :=
  ∀ (T : Tables) (s s' : State), SameRegisters s s' →
    (∀ addr, Access.read addr ∈ (engineCall T s).accesses → s'.read addr = s.read addr) →
    (engineCall T s').accesses = (engineCall T s).accesses ∧
    (engineCall T s').result = (engineCall T s).result ∧
    SameRegisters (engineCall T s).after (engineCall T s').after

/-! ### The host's side -/

/-- R267: the launch state of a run: reset's registers, and any memory image at all. -/
def Obligations.LaunchStateHasAnyImageTheHostChooses : Prop :=
  (∀ image, SameRegisters State.reset (launch image)) ∧
  ∀ f : Addr → Byte, ∃ image, ∀ addr : Addr, (launch image).read addr = f addr

/-- R268, R78 (D17; log entry 15): a host write before the first step changes one byte; after a step it has
no meaning; the host's reads change nothing at any time. -/
def Obligations.HostWritesOnlyBeforeTheFirstStep : Prop :=
  (∀ image addr v,
    transact (some (launch image)) (.write addr v) = some ((launch image).write addr v, .done)) ∧
  (∀ (s t : State) (addr : Addr) (v : Byte), step s = .next t → transact (some t) (.write addr v) = none) ∧
  ∀ (s : State) (addr : Addr) (f : Flag),
    transact (some s) (.read addr) = some (s, .byte (s.read addr)) ∧
    transact (some s) (.flag f) = some (s, .flag (s.p.asByte.getLsbD f.bit)) ∧
    transact (some s) .registers = some (s, .registers ⟨s.pc, s.sp, s.a, s.x, s.y, s.p.asByte⟩)

/-- R272 (D18): the reference driver: `RUN` of `m + n` steps is `RUN(n)` after `RUN(m)` while no call has
returned InvalidOpcode, and a run that has stopped in InvalidOpcode stays where it stopped. -/
def Obligations.RunStopsAtTheFirstInvalidOpcode : Prop :=
  ∀ (m n : Nat) (s : State),
    ((runStrict (m + 1) s).failed = false → runStrict (m + 1 + n) s = runStrict n (runStrict (m + 1) s)) ∧
    ((runStrict (m + 1) s).failed = true → runStrict (m + 1 + n) s = runStrict (m + 1) s)

/-- R239 (D9, D18): for a lenient driver the offending byte has acted as a one-byte no-op: the run goes on as
from the state with only `pc` advanced. -/
def Obligations.LenientDriverSkipsTheByte : Prop :=
  ∀ (n : Nat) (s : State), core14Rows.lookup (s.read s.pc) = none →
    runLenient (n + 2) s = runLenient (n + 1) { s with pc := s.pc + 1 }

/-- R100 (D20; log entry 14): the displacement the assembler stores takes the branch to its target, and
there is one exactly for the targets -126 to 129 from the opcode (R192 (4)), modulo 65536. -/
def Obligations.AssemblerDisplacementReachesTheTarget : Prop :=
  ∀ a target : Addr,
    (∀ d : Byte, branchDisplacement a target = some d ↔ branchTarget (a + 1) d = target) ∧
    ((branchDisplacement a target).isSome = true ↔
      ∃ k : Int, -126 ≤ k ∧ k ≤ 129 ∧ (target.toNat : Int) = ((a.toNat : Int) + k) % 65536)

/-! ### Sessions -/

/-- R201, R235, R261, R266: construction is the first transaction of a session and the only one of its kind; after
that, once a `step` call has been made, no transaction but `step` changes the state, and `step` changes it as
`step` says: there is no reset of a running core, no interrupt and no other way in. (That a call has been made
is read from the model's own field `response`, log entries 8 and 15.) -/
def Obligations.OnlyStepChangesAConstructedCoreOnceItRuns : Prop :=
  transact none .construct = some (State.reset, .done) ∧
  (∀ t : Transaction, t ≠ .construct → transact none t = none) ∧
  (∀ s : State, transact (some s) .construct = none) ∧
  ∀ (s u : State) (t : Transaction) (r : Reply), s.response ≠ none → transact (some s) t = some (u, r) →
    (t ≠ .step → u = s) ∧ (t = .step → step s = .next u ∧ ∃ v, u.response = some v ∧ r = .stepped v)

/-- R209, R267, R268: the states a session of host transactions can be in are exactly those that `step` calls make
of a launch state: construction, loading and stepping leave nothing else reachable. -/
def Obligations.SessionsReachExactlyTheRunsOfLaunchStates : Prop :=
  ∀ s : State, Hosted s ↔ Reachable s
end

