-- ==== Sys2Proof/Laws/State.lean ====
section
/-! SUPPORT. One lemma per field per update of State, each true by rfl, so that no proof unfolds a record
update; and the byte reads after each update. -/

namespace Sys2Proof.Machine

variable (s : State)

@[simp] theorem State.setA_pc (v : Byte) : (s.setA v).pc = s.pc := rfl
@[simp] theorem State.setA_sp (v : Byte) : (s.setA v).sp = s.sp := rfl
@[simp] theorem State.setA_a (v : Byte) : (s.setA v).a = v := rfl
@[simp] theorem State.setA_x (v : Byte) : (s.setA v).x = s.x := rfl
@[simp] theorem State.setA_y (v : Byte) : (s.setA v).y = s.y := rfl
@[simp] theorem State.setA_p (v : Byte) : (s.setA v).p = s.p := rfl
@[simp] theorem State.setA_mem (v : Byte) : (s.setA v).mem = s.mem := rfl
@[simp] theorem State.setA_response (v : Byte) : (s.setA v).response = s.response := rfl
@[simp] theorem State.read_setA (v : Byte) (b : Addr) : (s.setA v).read b = s.read b := rfl

@[simp] theorem State.setP_pc (p : Status) : (s.setP p).pc = s.pc := rfl
@[simp] theorem State.setP_sp (p : Status) : (s.setP p).sp = s.sp := rfl
@[simp] theorem State.setP_a (p : Status) : (s.setP p).a = s.a := rfl
@[simp] theorem State.setP_x (p : Status) : (s.setP p).x = s.x := rfl
@[simp] theorem State.setP_y (p : Status) : (s.setP p).y = s.y := rfl
@[simp] theorem State.setP_p (p : Status) : (s.setP p).p = p := rfl
@[simp] theorem State.setP_mem (p : Status) : (s.setP p).mem = s.mem := rfl
@[simp] theorem State.setP_response (p : Status) : (s.setP p).response = s.response := rfl
@[simp] theorem State.read_setP (p : Status) (b : Addr) : (s.setP p).read b = s.read b := rfl

@[simp] theorem State.setPc_pc (t : Addr) : (s.setPc t).pc = t := rfl
@[simp] theorem State.setPc_sp (t : Addr) : (s.setPc t).sp = s.sp := rfl
@[simp] theorem State.setPc_a (t : Addr) : (s.setPc t).a = s.a := rfl
@[simp] theorem State.setPc_x (t : Addr) : (s.setPc t).x = s.x := rfl
@[simp] theorem State.setPc_y (t : Addr) : (s.setPc t).y = s.y := rfl
@[simp] theorem State.setPc_p (t : Addr) : (s.setPc t).p = s.p := rfl
@[simp] theorem State.setPc_mem (t : Addr) : (s.setPc t).mem = s.mem := rfl
@[simp] theorem State.setPc_response (t : Addr) : (s.setPc t).response = s.response := rfl
@[simp] theorem State.read_setPc (t : Addr) (b : Addr) : (s.setPc t).read b = s.read b := rfl

@[simp] theorem State.advance_pc (n : Nat) : (s.advance n).pc = s.pc + BitVec.ofNat 16 n := rfl
@[simp] theorem State.advance_sp (n : Nat) : (s.advance n).sp = s.sp := rfl
@[simp] theorem State.advance_a (n : Nat) : (s.advance n).a = s.a := rfl
@[simp] theorem State.advance_x (n : Nat) : (s.advance n).x = s.x := rfl
@[simp] theorem State.advance_y (n : Nat) : (s.advance n).y = s.y := rfl
@[simp] theorem State.advance_p (n : Nat) : (s.advance n).p = s.p := rfl
@[simp] theorem State.advance_mem (n : Nat) : (s.advance n).mem = s.mem := rfl
@[simp] theorem State.advance_response (n : Nat) : (s.advance n).response = s.response := rfl
@[simp] theorem State.read_advance (n : Nat) (b : Addr) : (s.advance n).read b = s.read b := rfl

@[simp] theorem State.write_pc (addr : Addr) (v : Byte) : (s.write addr v).pc = s.pc := rfl
@[simp] theorem State.write_sp (addr : Addr) (v : Byte) : (s.write addr v).sp = s.sp := rfl
@[simp] theorem State.write_a (addr : Addr) (v : Byte) : (s.write addr v).a = s.a := rfl
@[simp] theorem State.write_x (addr : Addr) (v : Byte) : (s.write addr v).x = s.x := rfl
@[simp] theorem State.write_y (addr : Addr) (v : Byte) : (s.write addr v).y = s.y := rfl
@[simp] theorem State.write_p (addr : Addr) (v : Byte) : (s.write addr v).p = s.p := rfl
@[simp] theorem State.write_mem (addr : Addr) (v : Byte) : (s.write addr v).mem = s.mem.write addr v := rfl
@[simp] theorem State.write_response (addr : Addr) (v : Byte) : (s.write addr v).response = s.response := rfl

@[simp] theorem State.respond_pc (r : StepResult) : (s.respond r).pc = s.pc := rfl
@[simp] theorem State.respond_sp (r : StepResult) : (s.respond r).sp = s.sp := rfl
@[simp] theorem State.respond_a (r : StepResult) : (s.respond r).a = s.a := rfl
@[simp] theorem State.respond_x (r : StepResult) : (s.respond r).x = s.x := rfl
@[simp] theorem State.respond_y (r : StepResult) : (s.respond r).y = s.y := rfl
@[simp] theorem State.respond_p (r : StepResult) : (s.respond r).p = s.p := rfl
@[simp] theorem State.respond_mem (r : StepResult) : (s.respond r).mem = s.mem := rfl
@[simp] theorem State.respond_response (r : StepResult) : (s.respond r).response = some r := rfl
@[simp] theorem State.read_respond (r : StepResult) (b : Addr) : (s.respond r).read b = s.read b := rfl

variable (q : Status)

@[simp] theorem Status.zn_n (r : Byte) : (q.zn r).n = (r.getLsbD 7) := rfl
@[simp] theorem Status.zn_v (r : Byte) : (q.zn r).v = (q.v) := rfl
@[simp] theorem Status.zn_u (r : Byte) : (q.zn r).u = (q.u) := rfl
@[simp] theorem Status.zn_b (r : Byte) : (q.zn r).b = (q.b) := rfl
@[simp] theorem Status.zn_d (r : Byte) : (q.zn r).d = (q.d) := rfl
@[simp] theorem Status.zn_i (r : Byte) : (q.zn r).i = (q.i) := rfl
@[simp] theorem Status.zn_z (r : Byte) : (q.zn r).z = (r == 0) := rfl
@[simp] theorem Status.zn_c (r : Byte) : (q.zn r).c = (q.c) := rfl

/-- A flag reads back as it was written. -/
@[simp] theorem Status.get_put_same (f : Flag) (b : Bool) : (q.put f b).get f = b := by cases f <;> rfl

/-- Writing a flag leaves the other seven (R36). -/
theorem Status.get_put_other {f g : Flag} (b : Bool) (h : g ≠ f) : (q.put f b).get g = q.get g := by
  cases f <;> cases g <;> first | rfl | exact absurd rfl h

end Sys2Proof.Machine
end

