-- ==== Sys2Proof/Laws/Memory.lean ====
section
/-! SUPPORT. The laws of MemRead and MemWrite (20_memory.md R62, R63) over the list of cells: a write is
read back, leaves every other byte, and keeps the canonical form; a canonical memory is determined by
what it reads as. -/

namespace Sys2Proof.Machine

@[simp] theorem Memory.readKey_nil (k : Nat) : Memory.readKey [] k = Memory.unlisted := rfl

theorem Memory.readKey_cons (c : Host.Cell) (m : Memory) (k : Nat) :
    Memory.readKey (c :: m) k = if c.1 = k then c.2 else Memory.readKey m k := rfl

/-- A key that no cell has reads as an unlisted address. -/
theorem Memory.readKey_absent {m : Memory} {k : Nat} (h : ∀ c ∈ m, c.1 ≠ k) :
    m.readKey k = Memory.unlisted := by
  induction m with
  | nil => rfl
  | cons c m ih =>
    rw [Memory.readKey_cons, if_neg (h c (by simp))]
    exact ih fun d hd => h d (by simp [hd])

/-- Dropping the cells of another key changes no read. -/
theorem Memory.readKey_filter {k j : Nat} (h : j ≠ k) (m : Memory) :
    Memory.readKey (m.filter fun c => c.1 != k) j = m.readKey j := by
  induction m with
  | nil => rfl
  | cons c m ih =>
    by_cases hc : c.1 = k
    · have : ¬ c.1 = j := fun e => h (e ▸ hc)
      simp [hc, Memory.readKey_cons, ih, h.symm]
    · simp [hc, Memory.readKey_cons, ih]

/-- What an insertion reads as, where the key was not listed before. -/
theorem Memory.readKey_insertCell {k : Nat} (v : Byte) {m : Memory} (h : ∀ c ∈ m, c.1 ≠ k) (j : Nat) :
    Memory.readKey (m.insertCell k v) j = if k = j then v else m.readKey j := by
  induction m with
  | nil => simp [Memory.insertCell, Memory.readKey_cons]
  | cons c m ih =>
    have hc : c.1 ≠ k := h c (by simp)
    have ih := ih fun d hd => h d (by simp [hd])
    unfold Memory.insertCell
    split
    · simp [Memory.readKey_cons]
    · rw [Memory.readKey_cons, ih, Memory.readKey_cons]
      by_cases h1 : c.1 = j
      · have h2 : ¬ k = j := fun e => hc (h1.trans e.symm)
        simp [h1, h2]
      · simp [h1]

theorem Memory.mem_filter_ne {m : Memory} {k : Nat} :
    ∀ c ∈ m.filter (fun c => c.1 != k), c.1 ≠ k := by
  intro c hc
  simpa using (List.mem_filter.mp hc).2

/-- MemWrite then MemRead (R62, R63), for every memory, canonical or not. -/
theorem Memory.read_write (m : Memory) (a b : Addr) (v : Byte) :
    (m.write a v).read b = if a = b then v else m.read b := by
  have key : (a.toNat = b.toNat) ↔ a = b := BitVec.toNat_inj
  unfold Memory.write Memory.read
  by_cases hv : v = Memory.unlisted
  · simp only [hv, if_true]
    by_cases hab : a = b
    · subst hab
      simp [Memory.readKey_absent Memory.mem_filter_ne]
    · rw [if_neg hab, Memory.readKey_filter fun e => hab (key.mp e.symm)]
  · simp only [hv, if_false]
    rw [Memory.readKey_insertCell v Memory.mem_filter_ne]
    by_cases hab : a = b
    · simp [hab]
    · rw [if_neg (fun e => hab (key.mp e)), if_neg hab, Memory.readKey_filter fun e => hab (key.mp e.symm)]

@[simp] theorem Memory.read_write_same (m : Memory) (a : Addr) (v : Byte) : (m.write a v).read a = v := by
  simp [Memory.read_write]

theorem Memory.read_write_other {a b : Addr} (m : Memory) (v : Byte) (h : a ≠ b) :
    (m.write a v).read b = m.read b := by
  simp [Memory.read_write, h]

/-- The same, for the core's memory. -/
theorem State.read_write (s : State) (a b : Addr) (v : Byte) :
    (s.write a v).read b = if a = b then v else s.read b := Memory.read_write s.mem a b v

/-- The canonical form, as its three parts. -/
theorem Memory.wf_iff (m : Memory) :
    m.wf = true ↔ List.Pairwise (fun c d => c.1 < d.1) m ∧
      ∀ c ∈ m, c.1 < 65536 ∧ c.2 ≠ Memory.unlisted := by
  simp [Memory.wf]

theorem Memory.wf_nil : Memory.wf [] = true := by decide

theorem Memory.mem_insertCell {k : Nat} {v : Byte} {m : Memory} {c : Host.Cell} :
    c ∈ m.insertCell k v ↔ c = (k, v) ∨ c ∈ m := by
  induction m with
  | nil => simp [Memory.insertCell]
  | cons d m ih =>
    unfold Memory.insertCell
    split
    · simp
    · simp only [List.mem_cons, ih]
      tauto

theorem Memory.pairwise_insertCell {k : Nat} {v : Byte} {m : Memory}
    (h : List.Pairwise (fun c d => c.1 < d.1) m) (hk : ∀ c ∈ m, c.1 ≠ k) :
    List.Pairwise (fun c d => c.1 < d.1) (m.insertCell k v) := by
  induction m with
  | nil => simp [Memory.insertCell]
  | cons d m ih =>
    obtain ⟨hd, hm⟩ := List.pairwise_cons.mp h
    unfold Memory.insertCell
    split
    · rename_i hlt
      refine List.pairwise_cons.mpr ⟨fun c hc => ?_, h⟩
      rcases List.mem_cons.mp hc with rfl | hc
      · exact hlt
      · exact lt_trans hlt (hd c hc)
    · rename_i hge
      have hne : d.1 ≠ k := hk d (by simp)
      refine List.pairwise_cons.mpr ⟨fun c hc => ?_, ih hm fun c hc => hk c (by simp [hc])⟩
      rcases Memory.mem_insertCell.mp hc with rfl | hc
      · exact show d.1 < k by omega
      · exact hd c hc

/-- Every memory operation keeps the canonical form: MemWrite is the only one that changes a memory. -/
theorem Memory.write_wf {m : Memory} (h : m.wf = true) (a : Addr) (v : Byte) : (m.write a v).wf = true := by
  rw [Memory.wf_iff] at h ⊢
  have hf : List.Pairwise (fun c d : Host.Cell => c.1 < d.1) (m.filter fun c => c.1 != a.toNat) :=
    h.1.filter _
  have hb : ∀ c ∈ m.filter (fun c => c.1 != a.toNat), c.1 < 65536 ∧ c.2 ≠ Memory.unlisted :=
    fun c hc => h.2 c (List.mem_filter.mp hc).1
  unfold Memory.write
  split
  · exact ⟨hf, hb⟩
  · rename_i hv
    refine ⟨Memory.pairwise_insertCell hf Memory.mem_filter_ne, fun c hc => ?_⟩
    rcases Memory.mem_insertCell.mp hc with rfl | hc
    · exact ⟨a.isLt, hv⟩
    · exact hb c hc

/-- Storing bytes in a row keeps the canonical form. -/
theorem State.storeBytes_wf (bs : List Byte) {s : State} (h : s.mem.wf = true) (a : Addr) :
    (s.storeBytes a bs).mem.wf = true := by
  induction bs generalizing s a with
  | nil => exact h
  | cons v bs ih => exact ih (s := s.write a v) (Memory.write_wf h a v) (a + 1)

end Sys2Proof.Machine
end

