-- ==== Sys2Proof/Laws/Ops.lean ====
section
/-! SUPPORT. One lemma per shared operation that says what it does, so that a proof about an instruction
cites it instead of unfolding: the ALU operations, the two shapes of a meaning, the completion of a step,
the exception, and that an instruction always completes. -/

namespace Sys2Proof.Machine

/-! ### Bytes and addresses -/

theorem toNat_zext16 (b : Byte) : (zext16 b).toNat = b.toNat := by
  simp [zext16]
  omega

theorem toNat_joinBytes (hi lo : Byte) : (joinBytes hi lo).toNat = hi.toNat * 256 + lo.toNat := by
  have h : (hi ++ lo).toNat = hi.toNat <<< 8 ||| lo.toNat := BitVec.toNat_append hi lo
  have e : hi.toNat <<< 8 ||| lo.toNat = hi.toNat <<< 8 + lo.toNat :=
    (Nat.shiftLeft_add_eq_or_of_lt lo.isLt hi.toNat).symm
  rw [joinBytes, h, e, Nat.shiftLeft_eq]

theorem toNat_lowByte (w : Addr) : (lowByte w).toNat = w.toNat % 256 := by
  simp [lowByte]

theorem toNat_highByte (w : Addr) : (highByte w).toNat = w.toNat / 256 := by
  have := w.isLt
  simp [highByte, Nat.shiftRight_eq_div_pow]
  omega

/-- The byte order is one to one: an address is its two bytes (R68). -/
theorem joinBytes_high_low (w : Addr) : joinBytes (highByte w) (lowByte w) = w := by
  apply BitVec.eq_of_toNat_eq
  rw [toNat_joinBytes, toNat_highByte, toNat_lowByte]
  omega

theorem lowByte_joinBytes (hi lo : Byte) : lowByte (joinBytes hi lo) = lo := by
  apply BitVec.eq_of_toNat_eq
  rw [toNat_lowByte, toNat_joinBytes]
  omega

theorem highByte_joinBytes (hi lo : Byte) : highByte (joinBytes hi lo) = hi := by
  apply BitVec.eq_of_toNat_eq
  rw [toNat_highByte, toNat_joinBytes]
  have := hi.isLt
  omega

/-! ### The operations, field by field -/

section Fields

variable (m : Byte) (ea : Addr) (s : State)

/-- ADC writes `A` and the flags and nothing else (R123). -/
theorem applyAdc_eq :
    applyAdc m s = { s with a := adcResult s.a m s.p.c, p := adcFlags s.a m s.p } := rfl

/-- AND writes `A`, `Z` and `N` (R126). -/
theorem applyAnd_eq : applyAnd m s = { s with a := s.a &&& m, p := s.p.zn (s.a &&& m) } := rfl

/-- ASL A writes `A` and the flags (R127). -/
theorem applyAslAcc_eq : applyAslAcc s = { s with a := aslResult s.a, p := aslFlags s.a s.p } := rfl

/-- The memory form of ASL writes one byte of memory and the flags (R128). -/
theorem applyAslMem_eq :
    applyAslMem ea s =
      { s with mem := s.mem.write ea (aslResult (s.read ea)), p := aslFlags (s.read ea) s.p } := rfl

/-- CMP writes the flags only (R129). -/
theorem applyCmp_eq : applyCmp m s = { s with p := cmpFlags s.a m s.p } := rfl

/-- BIT writes the flags only (R130). -/
theorem applyBit_eq : applyBit m s = { s with p := bitFlags s.a m s.p } := rfl

/-- LDA writes `A`, `Z` and `N` (R131). -/
theorem applyLda_eq : applyLda m s = { s with a := m, p := s.p.zn m } := rfl

end Fields

/-- The shape of every instruction but a branch: it always completes. -/
@[simp] theorem finishAlu_eq (n : Nat) (f : State → State) (s : State) :
    finishAlu n f s = .next (f (s.advance n)) := rfl

/-- The shape of every branch: it always completes. -/
theorem branchIf_eq (cond : Bool) (disp : Byte) (s : State) :
    branchIf cond disp s = .next (if cond then s.setPc (branchTarget s.pc disp) else s.advance 1) := rfl

@[simp] theorem completeStep_next (t : State) (cycles : Nat) :
    completeStep (.next t) cycles = .next (t.respond (.ok cycles)) := rfl

/-- The state that InvalidOpcode leaves: only `pc` and the returned value (R231). -/
theorem takeInvalidOpcode_eq (s : State) :
    takeInvalidOpcode s =
      { s with pc := s.pc + 1, response := some (.invalidOpcode (s.read s.pc) s.pc) } := rfl

/-- Every instruction completes from every state: no meaning faults or refuses (R12, R204). -/
theorem exec_completes (i : Instr) (s : State) : ∃ t, exec i s = .next t := by
  cases i <;> exact ⟨_, rfl⟩

/-- No instruction touches `X`, `Y`, `SP` or the returned value (R22, R23, R205). -/
theorem exec_inert {i : Instr} {s t : State} (h : exec i s = .next t) :
    t.x = s.x ∧ t.y = s.y ∧ t.sp = s.sp ∧ t.response = s.response := by
  cases i
  case bcc | bcs | beq | bne | bmi | bpl | bvc | bvs =>
    cases h
    split <;> exact ⟨rfl, rfl, rfl, rfl⟩
  all_goals
    cases h
    exact ⟨rfl, rfl, rfl, rfl⟩

end Sys2Proof.Machine
end

