-- ==== Sys2Proof/Laws/Decode.lean ====
section
/-! SUPPORT. The decoder's own lemmas: what a row of the table makes of the bytes after the opcode, that
the three bytes at `pc` are never too few, and the two ways a step goes. -/

namespace Sys2Proof

/-- Every row of the opcode map makes an instruction of every operand: the map uses only the pairs of R96. -/
theorem build_of_row {r : OpcodeRow} (h : r ∈ core14Rows) (b1 b2 : Byte) :
    ∃ i, Instr.build r.operation r.mode b1 b2 = some i := by
  simp only [core14Rows, core14RowsLow, core14RowsMid, core14RowsHigh, List.cons_append, List.nil_append,
    List.mem_cons, List.not_mem_nil, or_false] at h
  rcases h with h | h | h | h | h | h | h | h | h | h | h | h | h | h | h | h | h | h | h | h | h | h |
    h | h | h | h | h | h | h | h | h | h | h | h | h | h | h | h | h | h | h | h | h | h | h | h | h <;>
  · subst h
    exact ⟨_, rfl⟩

theorem lookup_mem {t : OpcodeTable} {op : Byte} {r : OpcodeRow} (h : t.lookup op = some r) : r ∈ t :=
  List.mem_of_find?_eq_some h

theorem lookup_opcode {t : OpcodeTable} {op : Byte} {r : OpcodeRow} (h : t.lookup op = some r) :
    r.opcode = op := by
  have := List.find?_some h
  simpa using this

/-- What `Instr.build` makes has the operation and the mode it was made of. -/
theorem build_operation_mode {o : Operation} {m : Mode} {b1 b2 : Byte} {i : Instr}
    (h : Instr.build o m b1 b2 = some i) : i.operation = o ∧ i.mode = m := by
  cases o <;> cases m <;>
    first
    | (simp only [Instr.build, Option.some.injEq] at h; subst h; exact ⟨rfl, rfl⟩)
    | (simp [Instr.build] at h)

/-- Two operand bytes are always enough. -/
theorem takeOperands_two (m : Mode) (b1 b2 : Byte) :
    ∃ c1 c2 rest, takeOperands m.operandBytes [b1, b2] = some (c1, c2, rest) := by
  cases m <;> exact ⟨_, _, _, rfl⟩

namespace Machine

/-- A mapped byte at `pc`: the window decodes to an instruction with the row's operation and mode. -/
theorem decode_window_mapped {s : State} {r : OpcodeRow} (h : core14Rows.lookup (s.read s.pc) = some r) :
    ∃ i rest, decode (fetchWindow s) = .ok (i, rest) ∧ i.operation = r.operation ∧ i.mode = r.mode := by
  obtain ⟨c1, c2, rest, ht⟩ := takeOperands_two r.mode (s.read (s.pc + 1)) (s.read (s.pc + 2))
  obtain ⟨i, hi⟩ := build_of_row (lookup_mem h) c1 c2
  exact ⟨i, rest, by simp only [decode, fetchWindow, h, ht, hi], build_operation_mode hi⟩

/-- An unmapped byte at `pc`: the window is rejected by the byte. -/
theorem decode_window_unmapped {s : State} (h : core14Rows.lookup (s.read s.pc) = none) :
    decode (fetchWindow s) = .error (.unmapped (s.read s.pc)) := by
  simp [decode, fetchWindow, h]

/-- What a step can do, once: run the decoded instruction, or end in InvalidOpcode. -/
theorem step_cases (s : State) :
    (∃ r i rest t, core14Rows.lookup (s.read s.pc) = some r ∧ decode (fetchWindow s) = .ok (i, rest) ∧
      i.operation = r.operation ∧ i.mode = r.mode ∧ exec i (s.advance 1) = .next t ∧
      step s = .next (t.respond (.ok r.cycles))) ∨
    (core14Rows.lookup (s.read s.pc) = none ∧ step s = .next (takeInvalidOpcode s)) := by
  cases h : core14Rows.lookup (s.read s.pc) with
  | some r =>
    obtain ⟨i, rest, hd, ho, hm⟩ := decode_window_mapped h
    obtain ⟨t, ht⟩ := exec_completes i (s.advance 1)
    exact .inl ⟨r, i, rest, t, rfl, hd, ho, hm, ht, by
      simp [step, fetchDecodeExecute, hd, ht, baseCycles, h]⟩
  | none =>
    exact .inr ⟨rfl, by simp [step, fetchDecodeExecute, decode_window_unmapped h]⟩

end Machine

end Sys2Proof
end

