-- ==== Sys2Proof/Laws/Engine.lean ====
section
/-! SUPPORT. The three ways a call of the engine goes (43_fetch_decode_execute.md R200), for any legal
table, what a legal row is, and what `Operation.apply` leaves alone. -/

namespace Sys2Proof.Machine

@[simp] theorem core14_rows : core14.rows = core14Rows := rfl

@[simp] theorem Call.finish_result (r : StepResult) (t : State) (l : List Access) :
    (Call.finish r t l).result = r := rfl

@[simp] theorem Call.finish_after (r : StepResult) (t : State) (l : List Access) :
    (Call.finish r t l).after = t.respond r := rfl

@[simp] theorem Call.finish_accesses (r : StepResult) (t : State) (l : List Access) :
    (Call.finish r t l).accesses = l := rfl

section Cases

variable {T : Tables} {s : State} {row : OpcodeRow}

/-- No row: the error, after the fetch alone (R230, R231). -/
theorem engineCall_unmapped (h : T.rows.lookup (s.read s.pc) = none) :
    engineCall T s =
      Call.finish (.invalidOpcode (s.read s.pc) s.pc) (s.advance 1) [.read s.pc] := by
  simp only [engineCall, h]

/-- A relative row: the branch body (R180). -/
theorem engineCall_branch (h : T.rows.lookup (s.read s.pc) = some row) (hm : row.mode = .rel) :
    engineCall T s =
      if Operation.predicate row.operation s.p then
        Call.finish (.ok row.cycles) ((s.advance 1).setPc (branchTarget (s.pc + 1) (s.read (s.pc + 1))))
          [.read s.pc, .read (s.pc + 1)]
      else Call.finish (.ok row.cycles) ((s.advance 1).advance 1) [.read s.pc] := by
  simp only [engineCall, h, hm, if_true]
  rfl

/-- Any other row: resolve, apply, write back (R122). -/
theorem engineCall_alu (h : T.rows.lookup (s.read s.pc) = some row) (hm : row.mode ≠ .rel) :
    engineCall T s =
      let r := resolve row.mode (s.advance 1)
      let m := operandAt r.ea (s.advance 1)
      Call.finish (.ok row.cycles) (Operation.apply row.operation r.ea m ((s.advance 1).setPc r.pc))
        (.read s.pc :: (r.reads.map Access.read ++ dataAccesses row.operation r.ea m)) := by
  simp only [engineCall, h, hm, if_false]

end Cases

/-- A row of a legal table pairs REL with the branches exactly (D3). -/
theorem legal_row {T : Tables} {op : Byte} {row : OpcodeRow} (h : T.rows.lookup op = some row) :
    (row.mode = .rel ↔ row.operation.isBranch = true) ∧ (row.mode = .acc → row.operation = .asl) := by
  have hl := T.legal
  simp only [OpcodeTable.legal, Bool.and_eq_true, List.all_eq_true] at hl
  have hr := hl.2 row (lookup_mem h)
  simp only [OpcodeRow.legal, Bool.and_eq_true, beq_iff_eq, Bool.or_eq_true, bne_iff_ne] at hr
  refine ⟨?_, fun hm => hr.1.2.resolve_left fun hn => hn hm⟩
  rw [← hr.1.1]
  simp

/-- An operation writes no index register, no stack pointer and no `pc`. -/
theorem apply_inert (o : Operation) (ea : Option Addr) (m : Byte) (s : State) :
    (Operation.apply o ea m s).x = s.x ∧ (Operation.apply o ea m s).y = s.y ∧
      (Operation.apply o ea m s).sp = s.sp ∧ (Operation.apply o ea m s).pc = s.pc := by
  cases o <;> first | exact ⟨rfl, rfl, rfl, rfl⟩ | (cases ea <;> exact ⟨rfl, rfl, rfl, rfl⟩)

/-- Only ASL with an address writes memory, and only there (R67). -/
theorem apply_mem (o : Operation) (ea : Option Addr) (m : Byte) (s : State) :
    (Operation.apply o ea m s).mem = s.mem ∨
      ∃ addr, o = .asl ∧ ea = some addr ∧
        (Operation.apply o ea m s).mem = s.mem.write addr (aslResult (s.read addr)) := by
  cases o <;> first
    | exact .inl rfl
    | (cases ea with
       | none => exact .inl rfl
       | some addr => exact .inr ⟨addr, rfl, rfl, rfl⟩)

end Sys2Proof.Machine
end

