-- ==== Sys2Proof/Laws/PerInstr.lean ====
section
/-! SUPPORT. The family stated of every instruction by its constructor: the shape of its encoding. The
opcode byte has the row of the opcode map with the instruction's own operation and mode, and the encoding
has the length that the mode's format gives (30_encoding.md R90 to R94). -/

namespace Sys2Proof.Laws.EncodingShape

/-- The first byte's row names this operation and mode, and the length is the format's (R92). -/
def Statement (i : Instr) : Prop :=
  i.wellFormed = true ∧
    ((encode i).head?.bind fun op => core14Rows.lookup op).map (fun r => (r.operation, r.mode)) =
      some (i.operation, i.mode) ∧
    (encode i).length = i.mode.format.length ∧ (encode i).length = 1 + i.mode.operandBytes

theorem adcImm (value : Byte) : Statement (.adcImm value) := ⟨rfl, rfl, rfl, rfl⟩
theorem adcZp (zp : Byte) : Statement (.adcZp zp) := ⟨rfl, rfl, rfl, rfl⟩
theorem adcZpx (zp : Byte) : Statement (.adcZpx zp) := ⟨rfl, rfl, rfl, rfl⟩
theorem adcAbs (addr : Addr) : Statement (.adcAbs addr) := ⟨rfl, rfl, rfl, rfl⟩
theorem adcAbsx (addr : Addr) : Statement (.adcAbsx addr) := ⟨rfl, rfl, rfl, rfl⟩
theorem adcAbsy (addr : Addr) : Statement (.adcAbsy addr) := ⟨rfl, rfl, rfl, rfl⟩
theorem adcIndx (zp : Byte) : Statement (.adcIndx zp) := ⟨rfl, rfl, rfl, rfl⟩
theorem adcIndy (zp : Byte) : Statement (.adcIndy zp) := ⟨rfl, rfl, rfl, rfl⟩
theorem andImm (value : Byte) : Statement (.andImm value) := ⟨rfl, rfl, rfl, rfl⟩
theorem andZp (zp : Byte) : Statement (.andZp zp) := ⟨rfl, rfl, rfl, rfl⟩
theorem andZpx (zp : Byte) : Statement (.andZpx zp) := ⟨rfl, rfl, rfl, rfl⟩
theorem andAbs (addr : Addr) : Statement (.andAbs addr) := ⟨rfl, rfl, rfl, rfl⟩
theorem andAbsx (addr : Addr) : Statement (.andAbsx addr) := ⟨rfl, rfl, rfl, rfl⟩
theorem andAbsy (addr : Addr) : Statement (.andAbsy addr) := ⟨rfl, rfl, rfl, rfl⟩
theorem andIndx (zp : Byte) : Statement (.andIndx zp) := ⟨rfl, rfl, rfl, rfl⟩
theorem andIndy (zp : Byte) : Statement (.andIndy zp) := ⟨rfl, rfl, rfl, rfl⟩
theorem aslAcc : Statement .aslAcc := ⟨rfl, rfl, rfl, rfl⟩
theorem aslZp (zp : Byte) : Statement (.aslZp zp) := ⟨rfl, rfl, rfl, rfl⟩
theorem aslZpx (zp : Byte) : Statement (.aslZpx zp) := ⟨rfl, rfl, rfl, rfl⟩
theorem aslAbs (addr : Addr) : Statement (.aslAbs addr) := ⟨rfl, rfl, rfl, rfl⟩
theorem aslAbsx (addr : Addr) : Statement (.aslAbsx addr) := ⟨rfl, rfl, rfl, rfl⟩
theorem cmpImm (value : Byte) : Statement (.cmpImm value) := ⟨rfl, rfl, rfl, rfl⟩
theorem cmpZp (zp : Byte) : Statement (.cmpZp zp) := ⟨rfl, rfl, rfl, rfl⟩
theorem cmpZpx (zp : Byte) : Statement (.cmpZpx zp) := ⟨rfl, rfl, rfl, rfl⟩
theorem cmpAbs (addr : Addr) : Statement (.cmpAbs addr) := ⟨rfl, rfl, rfl, rfl⟩
theorem cmpAbsx (addr : Addr) : Statement (.cmpAbsx addr) := ⟨rfl, rfl, rfl, rfl⟩
theorem cmpAbsy (addr : Addr) : Statement (.cmpAbsy addr) := ⟨rfl, rfl, rfl, rfl⟩
theorem cmpIndx (zp : Byte) : Statement (.cmpIndx zp) := ⟨rfl, rfl, rfl, rfl⟩
theorem cmpIndy (zp : Byte) : Statement (.cmpIndy zp) := ⟨rfl, rfl, rfl, rfl⟩
theorem bitZp (zp : Byte) : Statement (.bitZp zp) := ⟨rfl, rfl, rfl, rfl⟩
theorem bitAbs (addr : Addr) : Statement (.bitAbs addr) := ⟨rfl, rfl, rfl, rfl⟩
theorem ldaImm (value : Byte) : Statement (.ldaImm value) := ⟨rfl, rfl, rfl, rfl⟩
theorem ldaZp (zp : Byte) : Statement (.ldaZp zp) := ⟨rfl, rfl, rfl, rfl⟩
theorem ldaZpx (zp : Byte) : Statement (.ldaZpx zp) := ⟨rfl, rfl, rfl, rfl⟩
theorem ldaAbs (addr : Addr) : Statement (.ldaAbs addr) := ⟨rfl, rfl, rfl, rfl⟩
theorem ldaAbsx (addr : Addr) : Statement (.ldaAbsx addr) := ⟨rfl, rfl, rfl, rfl⟩
theorem ldaAbsy (addr : Addr) : Statement (.ldaAbsy addr) := ⟨rfl, rfl, rfl, rfl⟩
theorem ldaIndx (zp : Byte) : Statement (.ldaIndx zp) := ⟨rfl, rfl, rfl, rfl⟩
theorem ldaIndy (zp : Byte) : Statement (.ldaIndy zp) := ⟨rfl, rfl, rfl, rfl⟩
theorem bcc (disp : Byte) : Statement (.bcc disp) := ⟨rfl, rfl, rfl, rfl⟩
theorem bcs (disp : Byte) : Statement (.bcs disp) := ⟨rfl, rfl, rfl, rfl⟩
theorem beq (disp : Byte) : Statement (.beq disp) := ⟨rfl, rfl, rfl, rfl⟩
theorem bne (disp : Byte) : Statement (.bne disp) := ⟨rfl, rfl, rfl, rfl⟩
theorem bmi (disp : Byte) : Statement (.bmi disp) := ⟨rfl, rfl, rfl, rfl⟩
theorem bpl (disp : Byte) : Statement (.bpl disp) := ⟨rfl, rfl, rfl, rfl⟩
theorem bvc (disp : Byte) : Statement (.bvc disp) := ⟨rfl, rfl, rfl, rfl⟩
theorem bvs (disp : Byte) : Statement (.bvs disp) := ⟨rfl, rfl, rfl, rfl⟩

end Sys2Proof.Laws.EncodingShape
end

