-- ==== Sys2Proof/Tests/Slice0.lean ====
section
/-! SUPPORT. The model's own tests. Expected values are the spec's: the opcode table and its encodings
(30_encoding.md R94, R100), the vectors of 95_test_vectors.md (V1 to V8, sections 2.1 to 2.10) and the
examples in the rules; a test names its source. The last part shows, for every statement with hypotheses,
a state and operands that meet them together. -/

namespace Sys2Proof.Tests

open Sys2Proof.Machine Sys2Proof.Claims

/-- A small state: the registers given, the listed bytes loaded, every other item as after reset. -/
def st (pc : Addr) (a x y p : Byte) (cells : List (Addr × Byte)) : State :=
  { State.reset.load cells with pc := pc, a := a, x := x, y := y, p := Status.fromByte p }

/-- `pc`, `A`, `P` as a byte, and the returned value, after one step. -/
def after (s : State) : Option (Addr × Byte × Byte × Option StepResult) :=
  match step s with
  | .next t => some (t.pc, t.a, t.p.asByte, t.response)
  | .fault _ | .refused _ => none

/-- One byte of memory after one step. -/
def byteAfter (s : State) (addr : Addr) : Option Byte :=
  match step s with
  | .next t => some (t.read addr)
  | .fault _ | .refused _ => none

/-- `A` and `P` after one meaning. -/
def execAP (i : Instr) (s : State) : Option (Byte × Byte) :=
  match exec i s with
  | .next t => some (t.a, t.p.asByte)
  | .fault _ | .refused _ => none

/-- The returned value of a step that ran an instruction. -/
def okC (n : Nat) : Option StepResult := some (.ok n)

/-! ### WellFormed: each check refuses an ill-formed term -/

/-- R96: the blank cells "no `BIT #imm`, no `ASL abs,Y`, no immediate ASL". -/
theorem test_wf_pairing_blank_cells :
    Operation.takes .bit .imm = false ∧ Operation.takes .asl .absy = false ∧
      Operation.takes .asl .imm = false ∧ Operation.takes .lda .acc = false ∧
      Operation.takes .adc .rel = false ∧ Operation.takes .bcc .imm = false := by decide

/-- D3: two rows for one byte. -/
theorem test_wf_table_repeated_byte :
    OpcodeTable.legal [⟨0x69, .adc, .imm, 2⟩, ⟨0x69, .lda, .imm, 2⟩] = false := by decide

/-- D3: REL with an operation that is no branch, and a branch without REL. -/
theorem test_wf_table_rel_pairing :
    OpcodeTable.legal [⟨0x69, .adc, .rel, 2⟩] = false ∧ OpcodeTable.legal [⟨0x90, .bcc, .imm, 2⟩] = false := by
  decide

/-- D3: ACC with ASL only; D15: counts are positive. -/
theorem test_wf_table_acc_and_count :
    OpcodeTable.legal [⟨0x0A, .lda, .acc, 2⟩] = false ∧ OpcodeTable.legal [⟨0x0A, .asl, .acc, 0⟩] = false ∧
      OpcodeTable.legal [⟨0x0A, .asl, .acc, 2⟩] = true := by decide

/-! ### Decode: every row's word, bit by bit from the table's encoding -/

/-- ADC: the encodings of spec/opcode_table.json. -/
theorem test_decode_adc :
    ∀ q ∈ ([([0b01101001, 0b11111010], .adcImm 0xFA),
      ([0b01100101, 0b01110001], .adcZp 0x71),
      ([0b01110101, 0b11101000], .adcZpx 0xE8),
      ([0b01101101, 0b00110100, 0b10010010], .adcAbs 0x9234),
      ([0b01111101, 0b00110100, 0b10010010], .adcAbsx 0x9234),
      ([0b01111001, 0b00110100, 0b10010010], .adcAbsy 0x9234),
      ([0b01100001, 0b01011111], .adcIndx 0x5F),
      ([0b01110001, 0b11010110], .adcIndy 0xD6)] : List (List Byte × Instr)),
      decode q.1 = .ok (q.2, []) ∧ encode q.2 = q.1 := by decide

/-- AND: the encodings of spec/opcode_table.json. -/
theorem test_decode_and :
    ∀ q ∈ ([([0b00101001, 0b01001101], .andImm 0x4D),
      ([0b00100101, 0b11000100], .andZp 0xC4),
      ([0b00110101, 0b00111011], .andZpx 0x3B),
      ([0b00101101, 0b00110100, 0b10010010], .andAbs 0x9234),
      ([0b00111101, 0b00110100, 0b10010010], .andAbsx 0x9234),
      ([0b00111001, 0b00110100, 0b10010010], .andAbsy 0x9234),
      ([0b00100001, 0b10110010], .andIndx 0xB2),
      ([0b00110001, 0b00101001], .andIndy 0x29)] : List (List Byte × Instr)),
      decode q.1 = .ok (q.2, []) ∧ encode q.2 = q.1 := by decide

/-- ASL: the encodings of spec/opcode_table.json. -/
theorem test_decode_asl :
    ∀ q ∈ ([([0b00001010], .aslAcc),
      ([0b00000110, 0b10100000], .aslZp 0xA0),
      ([0b00010110, 0b00010111], .aslZpx 0x17),
      ([0b00001110, 0b00110100, 0b10010010], .aslAbs 0x9234),
      ([0b00011110, 0b00110100, 0b10010010], .aslAbsx 0x9234)] : List (List Byte × Instr)),
      decode q.1 = .ok (q.2, []) ∧ encode q.2 = q.1 := by decide

/-- CMP: the encodings of spec/opcode_table.json. -/
theorem test_decode_cmp :
    ∀ q ∈ ([([0b11001001, 0b10001110], .cmpImm 0x8E),
      ([0b11000101, 0b00000101], .cmpZp 0x05),
      ([0b11010101, 0b01111100], .cmpZpx 0x7C),
      ([0b11001101, 0b00110100, 0b10010010], .cmpAbs 0x9234),
      ([0b11011101, 0b00110100, 0b10010010], .cmpAbsx 0x9234),
      ([0b11011001, 0b00110100, 0b10010010], .cmpAbsy 0x9234),
      ([0b11000001, 0b11110011], .cmpIndx 0xF3),
      ([0b11010001, 0b01101010], .cmpIndy 0x6A)] : List (List Byte × Instr)),
      decode q.1 = .ok (q.2, []) ∧ encode q.2 = q.1 := by decide

/-- BIT: the encodings of spec/opcode_table.json. -/
theorem test_decode_bit :
    ∀ q ∈ ([([0b00100100, 0b11100001], .bitZp 0xE1),
      ([0b00101100, 0b00110100, 0b10010010], .bitAbs 0x9234)] : List (List Byte × Instr)),
      decode q.1 = .ok (q.2, []) ∧ encode q.2 = q.1 := by decide

/-- LDA: the encodings of spec/opcode_table.json. -/
theorem test_decode_lda :
    ∀ q ∈ ([([0b10101001, 0b01011000], .ldaImm 0x58),
      ([0b10100101, 0b11001111], .ldaZp 0xCF),
      ([0b10110101, 0b01000110], .ldaZpx 0x46),
      ([0b10101101, 0b00110100, 0b10010010], .ldaAbs 0x9234),
      ([0b10111101, 0b00110100, 0b10010010], .ldaAbsx 0x9234),
      ([0b10111001, 0b00110100, 0b10010010], .ldaAbsy 0x9234),
      ([0b10100001, 0b10111101], .ldaIndx 0xBD),
      ([0b10110001, 0b00110100], .ldaIndy 0x34)] : List (List Byte × Instr)),
      decode q.1 = .ok (q.2, []) ∧ encode q.2 = q.1 := by decide

/-- branch: the encodings of spec/opcode_table.json. -/
theorem test_decode_branch :
    ∀ q ∈ ([([0b10010000, 0b10101011], .bcc 0xAB),
      ([0b10110000, 0b00100010], .bcs 0x22),
      ([0b11110000, 0b10011001], .beq 0x99),
      ([0b11010000, 0b00010000], .bne 0x10),
      ([0b00110000, 0b10000111], .bmi 0x87),
      ([0b00010000, 0b11111110], .bpl 0xFE),
      ([0b01010000, 0b01110101], .bvc 0x75),
      ([0b01110000, 0b11101100], .bvs 0xEC)] : List (List Byte × Instr)),
      decode q.1 = .ok (q.2, []) ∧ encode q.2 = q.1 := by decide

/-- R98: the bytes of BRK, NOP, JMP and STA of a full 6502, and an undocumented one, are unmapped. -/
theorem test_decode_unmapped :
    ∀ op ∈ ([0x00, 0xEA, 0x4C, 0x8D, 0xFF] : List Byte), decode [op, 0x12, 0x34] = .error (.unmapped op) := by
  decide

/-- A list that ends inside an instruction is no instruction. -/
theorem test_decode_truncated :
    decode [] = .error .truncated ∧ decode [0xAD, 0x34] = .error .truncated ∧
      decode [0xA9] = .error .truncated := by decide

/-- The table's numbering: operand bits are absent, so the operand is zero. -/
theorem test_decode_table_word :
    decodeTableWord 8 0xAD = some (.ldaAbs 0) ∧ decodeTableWord 8 0x0A = some .aslAcc ∧
      decodeTableWord 8 0x00 = none ∧ decodeTableWord 24 0x1234AD = some (.ldaAbs 0x1234) := by decide

/-- A placed word is what the first step after reset runs: `LDA $0000` reads its own opcode byte. -/
theorem test_with_fetch_word :
    after (State.reset.withFetchWord 8 0xAD) = some (0x0003, 0xAD, 0x80, okC 4) := by decide

/-! ### The ALU functions: tables 2.1 to 2.6 of 95_test_vectors.md -/

/-- Section 2.1: A, M, carry in, A', P'. -/
theorem test_adc_table :
    ∀ r ∈ ([(0x00, 0x00, 0, 0x00, 0x02), (0x00, 0x05, 0, 0x05, 0x00), (0x05, 0xFF, 0, 0x04, 0x01),
        (0xFF, 0x00, 1, 0x00, 0x03), (0x7F, 0x00, 1, 0x80, 0xC0), (0x50, 0x50, 0, 0xA0, 0xC0),
        (0xD0, 0x90, 0, 0x60, 0x41), (0x80, 0x80, 0, 0x00, 0x43), (0x7F, 0x7F, 1, 0xFF, 0xC0),
        (0xFF, 0xFF, 1, 0xFF, 0x81), (0x01, 0x01, 1, 0x03, 0x00)] : List (Byte × Byte × Byte × Byte × Byte)),
      execAP (.adcImm r.2.1) (st 1 r.1 0 0 r.2.2.1 []) = some (r.2.2.2.1, r.2.2.2.2) := by
  intro r hr
  fin_cases hr <;> rfl

/-- Section 2.2, from P = 0x41: C and V are kept. A, M, A', P'. -/
theorem test_and_table :
    ∀ r ∈ ([(0x0F, 0xF0, 0x00, 0x43), (0xFF, 0x80, 0x80, 0xC1), (0xC5, 0x0F, 0x05, 0x41),
        (0xFF, 0xFF, 0xFF, 0xC1), (0x00, 0xFF, 0x00, 0x43)] : List (Byte × Byte × Byte × Byte)),
      execAP (.andImm r.2.1) (st 1 r.1 0 0 0x41 []) = some (r.2.2.1, r.2.2.2) := by
  intro r hr
  fin_cases hr <;> rfl

/-- Section 2.3, the accumulator form, from P = 0x41 (the old carry is not shifted in; V is kept). -/
theorem test_asl_table :
    ∀ r ∈ ([(0x81, 0x02, 0x41), (0x80, 0x00, 0x43), (0x40, 0x80, 0xC0), (0x00, 0x00, 0x42), (0xFF, 0xFE, 0xC1),
        (0x01, 0x02, 0x40)] : List (Byte × Byte × Byte)),
      execAP .aslAcc (st 1 r.1 0 0 0x41 []) = some (r.2.1, r.2.2) := by
  intro r hr
  fin_cases hr <;> rfl

/-- Section 2.4, from P = 0x41: V is kept, the old C does not matter. A, M, P'. -/
theorem test_cmp_table :
    ∀ r ∈ ([(0x05, 0x03, 0x41), (0x03, 0x03, 0x43), (0x00, 0x01, 0xC0), (0x80, 0x00, 0xC1), (0x00, 0x80, 0xC0),
        (0x7F, 0xFF, 0xC0), (0xFF, 0x00, 0xC1), (0x00, 0x00, 0x43)] : List (Byte × Byte × Byte)),
      execAP (.cmpImm r.2.1) (st 1 r.1 0 0 0x41 []) = some (r.1, r.2.2) := by
  intro r hr
  fin_cases hr <;> rfl

/-- Section 2.5, from P = 0x01: C is kept. A, M, P'. -/
theorem test_bit_table :
    ∀ r ∈ ([(0x00, 0xC0, 0xC3), (0xFF, 0x00, 0x03), (0xFF, 0x3F, 0x01), (0x01, 0xC1, 0xC1), (0x40, 0x40, 0x41),
        (0x80, 0x80, 0x81), (0x0F, 0xF0, 0xC3)] : List (Byte × Byte × Byte)),
      execAP (.bitZp 0x10) (st 1 r.1 0 0 0x01 [(0x0010, r.2.1)]) = some (r.1, r.2.2) := by
  intro r hr
  fin_cases hr <;> rfl

/-- Section 2.6: from A = 0x33, P = 0xC3. M, P'. -/
theorem test_lda_table :
    ∀ r ∈ ([(0x00, 0x43), (0x80, 0xC1), (0x7F, 0x41), (0xFF, 0xC1)] : List (Byte × Byte)),
      execAP (.ldaImm r.1) (st 1 0x33 0 0 0xC3 []) = some (r.1, r.2) := by
  intro r hr
  fin_cases hr <;> rfl

/-- A state in which the eight data modes below all find the operand 0x9C, with X = 4 and Y = 0x10 (R93):
ZP 0x30, ZPX 0xFE + 4 = 0x02, ABS 0x1234, ABSX 0xFFFE + 4 = 0x0002, ABSY 0x1224 + 0x10, INDX pointer at
0xFB + 4 = 0xFF (high byte at 0x00), INDY pointer at 0x40. -/
def modesState (a p : Byte) : State :=
  st 0x8001 a 0x04 0x10 p
    [(0x0030, 0x9C), (0x0002, 0x9C), (0x1234, 0x9C), (0x00FF, 0x34), (0x0000, 0x12), (0x0040, 0x24), (0x0041, 0x12)]

/-- R123, R153 to R161: ADC of 0x9C to 0x70 in each mode is 0x0C, carry, no overflow. -/
theorem test_adc_every_mode :
    ∀ i ∈ ([.adcImm 0x9C, .adcZp 0x30, .adcZpx 0xFE, .adcAbs 0x1234, .adcAbsx 0xFFFE, .adcAbsy 0x1224,
        .adcIndx 0xFB, .adcIndy 0x40] : List Instr), execAP i (modesState 0x70 0x00) = some (0x0C, 0x01) := by decide

/-- R126: AND of 0xF4 with 0x9C in each mode is 0x94. -/
theorem test_and_every_mode :
    ∀ i ∈ ([.andImm 0x9C, .andZp 0x30, .andZpx 0xFE, .andAbs 0x1234, .andAbsx 0xFFFE, .andAbsy 0x1224,
        .andIndx 0xFB, .andIndy 0x40] : List Instr), execAP i (modesState 0xF4 0x01) = some (0x94, 0x81) := by decide

/-- R129: CMP of 0x9B with 0x9C in each mode: no carry, d = 0xFF. -/
theorem test_cmp_every_mode :
    ∀ i ∈ ([.cmpImm 0x9C, .cmpZp 0x30, .cmpZpx 0xFE, .cmpAbs 0x1234, .cmpAbsx 0xFFFE, .cmpAbsy 0x1224,
        .cmpIndx 0xFB, .cmpIndy 0x40] : List Instr), execAP i (modesState 0x9B 0x01) = some (0x9B, 0x80) := by decide

/-- R131: LDA of 0x9C in each mode. -/
theorem test_lda_every_mode :
    ∀ i ∈ ([.ldaImm 0x9C, .ldaZp 0x30, .ldaZpx 0xFE, .ldaAbs 0x1234, .ldaAbsx 0xFFFE, .ldaAbsy 0x1224,
        .ldaIndx 0xFB, .ldaIndy 0x40] : List Instr), execAP i (modesState 0x00 0x02) = some (0x9C, 0x80) := by decide

/-! ### Whole steps: section 2.7 -/

theorem test_m1 :
    after (st 0x0000 0x00 0x00 0x00 0x00 [(0x0000, 0xA9), (0x0001, 0x10)]) = some (0x0002, 0x10, 0x00, okC 2) := by decide

theorem test_m2 :
    after (st 0x0000 0x00 0x00 0x00 0x00 [(0x0000, 0xA5), (0x0001, 0x10), (0x0010, 0x77)]) = some (0x0002, 0x77, 0x00, okC 3) := by decide

theorem test_m3_zero_page_wrap :
    after (st 0x0000 0x00 0x20 0x00 0x00 [(0x0000, 0xB5), (0x0001, 0xF0), (0x0010, 0x55), (0x0110, 0xEE)]) = some (0x0002, 0x55, 0x00, okC 4) := by decide

theorem test_m5_little_endian :
    after (st 0x0000 0x00 0x00 0x00 0x00 [(0x0000, 0xAD), (0x0001, 0x34), (0x0002, 0x12), (0x1234, 0xAB), (0x3412, 0xCD)]) = some (0x0003, 0xAB, 0x80, okC 4) := by decide

theorem test_m7_absolute_wrap :
    after (st 0x0000 0x00 0x20 0x00 0x00 [(0x0000, 0xBD), (0x0001, 0xF0), (0x0002, 0xFF), (0x0010, 0x43)]) = some (0x0003, 0x43, 0x00, okC 4) := by decide

theorem test_m8 :
    after (st 0x0000 0x00 0x00 0x01 0x00 [(0x0000, 0xB9), (0x0001, 0xFF), (0x0002, 0x00), (0x0100, 0x44)]) = some (0x0003, 0x44, 0x00, okC 4) := by decide

theorem test_m10_pointer_wrap :
    after (st 0x0200 0x00 0x01 0x00 0x00 [(0x0200, 0xA1), (0x0201, 0xFE), (0x00FF, 0x34), (0x0000, 0x12), (0x0100, 0x99), (0x1234, 0x46)]) = some (0x0202, 0x46, 0x00, okC 6) := by decide

theorem test_m12_index_wrap :
    after (st 0x0200 0x00 0x00 0x02 0x00 [(0x0200, 0xB1), (0x0201, 0xFF), (0x00FF, 0xFF), (0x0000, 0xFF), (0x0001, 0x48)]) = some (0x0202, 0x48, 0x00, okC 5) := by decide

theorem test_m13_opcode_at_the_top :
    after (st 0xFFFF 0x00 0x00 0x00 0x00 [(0xFFFF, 0xA9), (0x0000, 0x5A)]) = some (0x0001, 0x5A, 0x00, okC 2) := by decide

theorem test_m14_operand_across_the_top :
    after (st 0xFFFE 0x00 0x00 0x00 0x00 [(0xFFFE, 0xAD), (0xFFFF, 0x00), (0x0000, 0x03), (0x0300, 0x5B)]) = some (0x0001, 0x5B, 0x00, okC 4) := by decide

theorem test_m15 :
    after (st 0x0000 0x00 0x05 0x00 0x00 [(0x0000, 0x1E), (0x0001, 0x00), (0x0002, 0x03), (0x0305, 0xC0)]) = some (0x0003, 0x00, 0x81, okC 7) ∧
      byteAfter (st 0x0000 0x00 0x05 0x00 0x00 [(0x0000, 0x1E), (0x0001, 0x00), (0x0002, 0x03), (0x0305, 0xC0)]) 0x0305 = some 0x80 := by decide

theorem test_m16 :
    after (st 0x0000 0x00 0x00 0x00 0x00 [(0x0000, 0x06), (0x0001, 0x10), (0x0010, 0x81)]) = some (0x0002, 0x00, 0x01, okC 5) ∧
      byteAfter (st 0x0000 0x00 0x00 0x00 0x00 [(0x0000, 0x06), (0x0001, 0x10), (0x0010, 0x81)]) 0x0010 = some 0x02 := by decide

theorem test_m17 :
    after (st 0x0000 0x00 0x00 0x00 0x00 [(0x0000, 0x16), (0x0001, 0x10), (0x0010, 0x40)]) = some (0x0002, 0x00, 0x80, okC 6) ∧
      byteAfter (st 0x0000 0x00 0x00 0x00 0x00 [(0x0000, 0x16), (0x0001, 0x10), (0x0010, 0x40)]) 0x0010 = some 0x80 := by decide

theorem test_m18 :
    after (st 0x0000 0x00 0x00 0x00 0x00 [(0x0000, 0x0E), (0x0001, 0x00), (0x0002, 0x03), (0x0300, 0x80)]) = some (0x0003, 0x00, 0x03, okC 6) ∧
      byteAfter (st 0x0000 0x00 0x00 0x00 0x00 [(0x0000, 0x0E), (0x0001, 0x00), (0x0002, 0x03), (0x0300, 0x80)]) 0x0300 = some 0x00 := by decide

theorem test_m19 :
    after (st 0x0000 0x01 0x00 0x00 0x81 [(0x0000, 0x2C), (0x0001, 0x00), (0x0002, 0x03), (0x0300, 0x41)]) = some (0x0003, 0x01, 0x41, okC 4) := by decide

theorem test_m20 :
    after (st 0x0000 0x50 0x00 0x00 0x00 [(0x0000, 0x65), (0x0001, 0x10), (0x0010, 0x50)]) = some (0x0002, 0xA0, 0xC0, okC 3) := by decide

theorem test_m21 :
    after (st 0x0000 0x10 0x00 0x00 0x00 [(0x0000, 0xCD), (0x0001, 0x00), (0x0002, 0x03), (0x0300, 0x20)]) = some (0x0003, 0x10, 0x80, okC 4) := by decide

theorem test_m22 :
    after (st 0x0000 0xF0 0x00 0x00 0x00 [(0x0000, 0x31), (0x0001, 0x40), (0x0040, 0x00), (0x0041, 0x03), (0x0300, 0x3C)]) = some (0x0002, 0x30, 0x00, okC 5) := by decide

theorem test_m23 :
    after (st 0x0005 0x81 0x00 0x00 0x00 [(0x0005, 0x0A)]) = some (0x0006, 0x02, 0x01, okC 2) := by decide

theorem test_v6_bit :
    after (st 0x0000 0x00 0x00 0x00 0x00 [(0x0000, 0x24), (0x0001, 0x10), (0x0010, 0xC0)]) = some (0x0002, 0x00, 0xC2, okC 3) := by decide

/-- The accesses column of section 2.7 for M10 (pointer wrap), M15 (read-modify-write), M14 and M23. -/
theorem test_accesses :
    (engineCall core14 (st 0x0200 0 1 0 0 [(0x0200, 0xA1), (0x0201, 0xFE), (0x00FF, 0x34), (0x0000, 0x12)])).accesses =
        [.read 0x0200, .read 0x0201, .read 0x00FF, .read 0x0000, .read 0x1234] ∧
      (engineCall core14 (st 0 0 5 0 0 [(0, 0x1E), (1, 0x00), (2, 0x03), (0x0305, 0xC0)])).accesses =
        [.read 0x0000, .read 0x0001, .read 0x0002, .read 0x0305, .write 0x0305 0x80] ∧
      (engineCall core14 (st 0xFFFE 0 0 0 0 [(0xFFFE, 0xAD), (0xFFFF, 0x00), (0x0000, 0x03)])).accesses =
        [.read 0xFFFE, .read 0xFFFF, .read 0x0000, .read 0x0300] ∧
      (engineCall core14 (st 5 0x81 0 0 0 [(5, 0x0A)])).accesses = [.read 0x0005] := by decide

/-! ### Branches: section 2.8 -/

/-- Opcode, P before, `pc` after, of the two bytes `op 10` at 0x0100: each branch taken and not taken. -/
theorem test_branch_table :
    ∀ r ∈ ([(0x90, 0x00, 0x0112), (0x90, 0x01, 0x0102), (0xB0, 0x01, 0x0112), (0xB0, 0x00, 0x0102),
        (0xF0, 0x02, 0x0112), (0xF0, 0x00, 0x0102), (0xD0, 0x00, 0x0112), (0xD0, 0x02, 0x0102),
        (0x30, 0x80, 0x0112), (0x30, 0x00, 0x0102), (0x10, 0x00, 0x0112), (0x10, 0x80, 0x0102),
        (0x50, 0x00, 0x0112), (0x50, 0x40, 0x0102), (0x70, 0x40, 0x0112), (0x70, 0x00, 0x0102)] :
        List (Byte × Byte × Addr)),
      after (st 0x0100 0 0 0 r.2.1 [(0x0100, r.1), (0x0101, 0x10)]) = some (r.2.2, 0, r.2.1, okC 2) := by
  intro r hr
  fin_cases hr <;> rfl

/-- The corner cases, all taken: backward, to itself, both wraps, onto the displacement byte, zero. -/
theorem test_branch_corners :
    ∀ r ∈ ([(0xD0, 0xFA, 0x0006, 0x00, 0x0002), (0xF0, 0xFE, 0x0020, 0x02, 0x0020),
        (0x10, 0x80, 0x0000, 0x00, 0xFF82), (0x50, 0x7F, 0xFFFD, 0x00, 0x007E),
        (0x90, 0xFF, 0x0300, 0x00, 0x0301), (0x90, 0x00, 0x0300, 0x00, 0x0302)] :
        List (Byte × Byte × Addr × Byte × Addr)),
      after (st r.2.2.1 0 0 0 r.2.2.2.1 [(r.2.2.1, r.1), (r.2.2.1 + 1, r.2.1)]) =
        some (r.2.2.2.2, 0, r.2.2.2.1, okC 2) := by decide

/-- V7: the branch operation with `pc` at the displacement byte 0, carry set: not taken, `pc` is 1. -/
theorem test_v7_bcc_not_taken : ∀ d ∈ ([0x00, 0x7F, 0xFF] : List Byte),
    exec (.bcc d) (st 0 0 0 0 0x01 []) = .next (st 1 0 0 0 0x01 []) := by
  intro d hd
  fin_cases hd <;> rfl

/-! ### InvalidOpcode: section 2.9 -/

theorem test_invalid_00 :
    after (st 0x0400 0x12 0 0 0xC3 []) = some (0x0401, 0x12, 0xC3, some (.invalidOpcode 0x00 0x0400)) := by decide

theorem test_invalid_ea_at_the_top :
    after (st 0xFFFF 0 0 0 0 [(0xFFFF, 0xEA)]) = some (0x0000, 0, 0, some (.invalidOpcode 0xEA 0xFFFF)) := by decide

/-- "A fresh CPU with nothing loaded". -/
theorem test_invalid_fresh :
    after State.reset = some (0x0001, 0, 0, some (.invalidOpcode 0x00 0x0000)) := by decide

/-! ### Status block, host, assembler -/

/-- Section 2.10. -/
theorem test_status_block :
    ((Status.fromByte 0x00).set .carry).asByte = 0x01 ∧ ((Status.fromByte 0x01).set .negative).asByte = 0x81 ∧
      ((Status.fromByte 0x81).clear .carry).asByte = 0x80 ∧ ((Status.fromByte 0x80).clear .zero).asByte = 0x80 ∧
      (Status.fromByte 0x40).get .overflow = true ∧ (Status.fromByte 0xBF).get .overflow = false ∧
      (Status.fromByte 0x20).u = true ∧ (Status.fromByte 0x20).asByte = 0x20 ∧ Status.cleared.asByte = 0x00 := by
  decide

/-- R268: a host write has a meaning before the first step and none after it; R269: the accessors; R261, R266: a
core is constructed once, first. -/
theorem test_host_write_window :
    (transact (some State.reset) (.write 0x1234 0x56)).isSome = true ∧
      transact (some { State.reset with response := okC 2 }) (.write 0x1234 0x56) = none ∧
      transact (some (st 7 1 2 3 0xC3 [])) .registers =
        some (st 7 1 2 3 0xC3 [], .registers ⟨7, 0, 1, 2, 3, 0xC3⟩) ∧
      (transact none .construct).isSome = true ∧ transact none .step = none ∧
      transact (some State.reset) .construct = none := by
  decide

/-- The canonical form: writing 0x00 removes the entry. -/
theorem test_memory_canonical :
    (Memory.write (Memory.write [] 5 1) 3 2 : Memory) = [(3, 2), (5, 1)] ∧
      (Memory.write [(3, 2), (5, 1)] 3 0 : Memory) = [(5, 1)] ∧ Memory.wf [(5, 1), (3, 2)] = false ∧
      Memory.wf [(3, 0)] = false ∧ Memory.wf [(65536, 1)] = false := by decide

/-- R100's table of examples, written by the model. -/
theorem test_assembler_text :
    Instr.text .aslAcc 0 = ['A', 'S', 'L', ' ', 'A'] ∧
      Instr.text (.ldaImm 0x10) 0 = ['L', 'D', 'A', ' ', '#', '$', '1', '0'] ∧
      Instr.text (.ldaAbsx 0x1234) 0 = ['L', 'D', 'A', ' ', '$', '1', '2', '3', '4', ',', 'X'] ∧
      Instr.text (.ldaIndx 0x10) 0 = ['L', 'D', 'A', ' ', '(', '$', '1', '0', ',', 'X', ')'] ∧
      Instr.text (.ldaIndy 0x10) 0 = ['L', 'D', 'A', ' ', '(', '$', '1', '0', ')', ',', 'Y'] ∧
      Instr.text (.bne 0xFA) 0x0006 = ['B', 'N', 'E', ' ', '$', '0', '0', '0', '2'] ∧
      branchDisplacement 0x0006 0x0002 = some 0xFA ∧ branchDisplacement 0x0006 0x0088 = none := by decide

/-! ### Witnesses: the hypotheses of each statement can be met

A theorem `meets_<Name>` gives concrete states and operands that meet every hypothesis of the statement
`Obligations.<Name>` together, one for each clause that has hypotheses. -/

/-- `LDA #$10` at 0x0000. -/
def ldaState : State := st 0 0 0 0 0 [(0x0000, 0xA9), (0x0001, 0x10)]

/-- `ASL $0001` at 0x0000: the byte it shifts is one of its own. -/
def aslState : State := st 0 0 0 0 0 [(0x0000, 0x0E), (0x0001, 0x03), (0x0003, 0x05)]

/-- `BNE` back to itself at 0x0000, `Z` as given by `p`. -/
def bneState (p : Byte) : State := st 0 0 0 0 p [(0x0000, 0xD0), (0x0001, 0xFE)]

/-- Unmapped byte 0xEA at the top of the space. -/
def badState : State := st 0xFFFF 0 0 0 0 [(0xFFFF, 0xEA)]

/-- Two tables of one row each, for the same byte, that differ in the count. -/
def oneRow (cycles : Nat) (h : OpcodeTable.legal [⟨0x69, .adc, .imm, cycles⟩] = true) : Tables := ⟨_, h⟩

theorem meets_SetAndClearChangeOneFlag :
    Flag.zero ≠ Flag.carry ∧ Flag.overflow ∈ flagsWritten .adc ∧
      (Status.fromByte 0x01).c = (Status.fromByte 0xFF).c ∧ Flag.negative ∈ flagsWritten .and ∧
      Flag.carry ∈ flagsWritten .asl ∧ Flag.zero ∈ flagsWritten .cmp ∧ Flag.overflow ∈ flagsWritten .bit := by
  decide

theorem meets_MemoryReadsTheLastWrite : (0xFFFF : Addr) ≠ 0x0000 := by decide

theorem meets_CanonicalMemoriesThatReadAlikeAreEqual :
    ∃ m m' : Memory, m.wf = true ∧ m'.wf = true ∧ ∀ addr : Addr, m.read addr = m'.read addr :=
  ⟨[(0, 1), (65535, 2)], [(0, 1), (65535, 2)], by decide, by decide, fun _ => rfl⟩

theorem meets_UnmappedBytesAndOnlyTheyAreInvalidOpcode :
    core14Rows.lookup (badState.read badState.pc) = none ∧
      core14Rows.lookup (State.reset.read State.reset.pc) = none := by decide

theorem meets_EncodeUndoesDecode : decode [0xAD, 0xFF, 0xFF, 0x0A] = .ok (.ldaAbs 0xFFFF, [0x0A]) := by decide

theorem meets_DecodeReadsOnlyTheOpcodeByte :
    ldaState.read ldaState.pc = (st 0x0200 0xFF 1 1 0xFF [(0x0200, 0xA9), (0x0201, 0xEE)]).read 0x0200 ∧
      core14Rows.lookup 0xF0 ≠ none ∧ core14Rows.lookup 0x06 ≠ none := by decide

/-- A one-byte and a three-byte instruction. -/
theorem meets_ModeFormatGivesTheLength :
    decode [0x0A] = .ok (.aslAcc, []) ∧ decode [0x79, 0, 0, 1] = .ok (.adcAbsy 0, [1]) := by decide

theorem meets_ZeroAndNegativeComeFromTheResult : Flag.carry ≠ .zero ∧ Flag.carry ≠ .negative := by decide

/-- The frame of each form (`FlagsSameBut`, `MemSameBut`, a bit below 8) speaks of something. -/
theorem meets_FormFrames :
    Flag.decimal ∉ [Flag.negative, .overflow, .zero, .carry] ∧ Flag.overflow ∉ [Flag.negative, .zero, .carry] ∧
      Flag.carry ∉ [Flag.negative, .overflow, .zero] ∧ Flag.carry ∉ [Flag.negative, .zero] ∧
      (0x0000 : Addr) ≠ eaZp 0xFF ∧ 7 < 8 := by decide

/-- Both values of each predicate occur. -/
theorem meets_EachBranchTestsItsFlag :
    (Status.fromByte 0xC3).c = true ∧ (Status.fromByte 0xC3).z = true ∧ (Status.fromByte 0xC3).n = true ∧
      (Status.fromByte 0xC3).v = true ∧ (Status.fromByte 0x00).c = false ∧ (Status.fromByte 0x00).z = false ∧
      (Status.fromByte 0x00).n = false ∧ (Status.fromByte 0x00).v = false := by decide

theorem meets_BranchStepsGoToTargetOrPastDisplacement :
    decodeTable core14 ((bneState 0x00).read (bneState 0x00).pc) = some (.bne, .rel) ∧
      Operation.predicate .bne (bneState 0x00).p = true ∧
      decodeTable core14 ((bneState 0x02).read (bneState 0x02).pc) = some (.bne, .rel) ∧
      Operation.predicate .bne (bneState 0x02).p = false := by decide

theorem meets_StepRunsTheDecodedInstruction :
    decode (fetchWindow ldaState) = .ok (.ldaImm 0x10, [0x00]) := by decide

theorem meets_InvalidOpcodeAdvancesPcAndNothingElse :
    core14Rows.lookup (badState.read badState.pc) = none := by decide

theorem meets_StepReturnsTheBaseCycleCount :
    decode (fetchWindow aslState) = .ok (.aslAbs 0x0003, []) ∧ gridCycles .asl .abs = 6 := by decide

/-- One state for each case: unmapped, accumulator, taken, not taken, and one and two operand bytes. -/
theorem meets_PcAfterEachKindOfStep :
    decodeTable core14 (badState.read badState.pc) = none ∧
      decodeTable core14 ((st 5 0 0 0 0 [(5, 0x0A)]).read 5) = some (.asl, .acc) ∧
      branchTaken .bne (bneState 0x00).p ∧ ¬ branchTaken .bne (bneState 0x02).p ∧
      decodeTable core14 (ldaState.read ldaState.pc) = some (.lda, .imm) ∧
      decodeTable core14 (aslState.read aslState.pc) = some (.asl, .abs) := by
  refine ⟨by decide, by decide, ?_, ?_, by decide, by decide⟩
  · show (bneState 0x00).p.z = false
    decide
  · show ¬ (bneState 0x02).p.z = false
    decide

/-- `step ldaState` answers a next state; `V` is outside LDA's row, and every flag is outside InvalidOpcode's. -/
theorem meets_StepsWriteOnlyTheirFlags :
    (after ldaState).isSome = true ∧ decodeTable core14 (ldaState.read ldaState.pc) = some (.lda, .imm) ∧
      Flag.overflow ∉ flagsWritten .lda ∧ (after badState).isSome = true ∧
      decodeTable core14 (badState.read badState.pc) = none := by decide

/-- LDA immediate uses neither index register; `ASL abs` uses neither. -/
theorem meets_IndexRegistersAreReadOnlyByIndexedModes :
    (∃ t, step ldaState = .next t) ∧
      ∀ o m, decodeTable core14 (ldaState.read ldaState.pc) = some (o, m) →
        (m ≠ .zpx ∧ m ≠ .absx ∧ m ≠ .indx) ∧ m ≠ .absy ∧ m ≠ .indy := by
  refine ⟨⟨_, rfl⟩, fun o m h => ?_⟩
  have h' : some (Operation.lda, Mode.imm) = some (o, m) := h
  cases h'
  decide

theorem meets_StackPointerAndUnusedFlagsAreInert :
    (∃ t, step ldaState = .next t) ∧ Flag.decimal ∈ [Flag.unused, .break, .decimal, .interruptDisable] :=
  ⟨⟨_, rfl⟩, by decide⟩

/-- The shifted byte is the next opcode. -/
theorem meets_NextFetchSeesTheByteAslWrote :
    decodeTable core14 (aslState.read aslState.pc) = some (.asl, .abs) ∧
      (resolve .abs (aslState.advance 1)).ea = some 0x0003 ∧
      ∃ t, step aslState = .next t ∧ t.pc = 0x0003 ∧ t.read 0x0003 = 0x0A :=
  ⟨by decide, by decide, _, rfl, by decide, by decide⟩

theorem meets_OnlyMemoryFormsOfAslWriteMemory :
    ∃ t, step aslState = .next t ∧ t.read 0x0003 ≠ aslState.read 0x0003 := ⟨_, rfl, by decide⟩

theorem meets_StepKeepsMemoryCanonical : aslState.Canonical ∧ ∃ t, step aslState = .next t :=
  ⟨by show Memory.wf _ = true; decide, _, rfl⟩

theorem meets_StepKeepsInertStateAtReset : (bneState 0xC3).InertAtReset ∧ ∃ t, step (bneState 0xC3) = .next t :=
  ⟨⟨by decide, by decide, by decide, by decide⟩, _, rfl⟩

theorem meets_ReachableStatesKeepResetRegistersAndFlags :
    ∃ s t, Reachable s ∧ step s = .next t ∧ Reachable t ∧ t.a = 0x10 :=
  ⟨launch [(0x0000, 0xA9), (0x0001, 0x10)], _, .launch _, rfl,
    .step (.launch [(0x0000, 0xA9), (0x0001, 0x10)]) rfl, by decide⟩

theorem meets_AnyLegalTableKeepsInertState :
    aslState.Canonical ∧ decodeTable (oneRow 2 (by decide)) (aslState.read aslState.pc) = none :=
  ⟨by show Memory.wf _ = true; decide, by decide⟩

theorem meets_CycleTableChangesNoState :
    (oneRow 2 (by decide)).rows ≠ (oneRow 7 (by decide)).rows ∧
      ∀ op, decodeTable (oneRow 2 (by decide)) op = decodeTable (oneRow 7 (by decide)) op := by
  refine ⟨by decide, fun op => ?_⟩
  by_cases h : (0x69 : Byte) = op <;> simp [decodeTable, oneRow, OpcodeTable.lookup, h]

/-- Two states that differ at 0x0002, which `LDA #$10` at 0x0000 does not read. -/
theorem meets_CallDependsOnlyOnTheBytesItReads :
    SameRegisters ldaState (ldaState.write 0x0002 0x77) ∧ ldaState.write 0x0002 0x77 ≠ ldaState ∧
      ∀ addr, Access.read addr ∈ (engineCall core14 ldaState).accesses →
        (ldaState.write 0x0002 0x77).read addr = ldaState.read addr := by
  refine ⟨⟨rfl, rfl, rfl, rfl, rfl, rfl⟩, by decide, fun addr h => ?_⟩
  have h' : Access.read addr ∈ [Access.read 0x0000, Access.read 0x0001] := h
  simp only [List.mem_cons, List.not_mem_nil, or_false, Access.read.injEq] at h'
  rcases h' with rfl | rfl <;> decide

theorem meets_HostWritesOnlyBeforeTheFirstStep : ∃ t, step ldaState = .next t := ⟨_, rfl⟩

/-- A core that has made a step: a read, which changes nothing, and another step, an InvalidOpcode one. -/
theorem meets_OnlyStepChangesAConstructedCoreOnceItRuns :
    Transaction.step ≠ .construct ∧ Transaction.read 0 ≠ .step ∧
      ∃ s, step ldaState = .next s ∧ s.response ≠ none ∧
        (transact (some s) (.read 0)).isSome = true ∧ (transact (some s) .step).isSome = true :=
  ⟨by decide, by decide, _, rfl, by decide, by decide, by decide⟩

/-- A run that has not stopped after one step, and one that has. -/
theorem meets_RunStopsAtTheFirstInvalidOpcode :
    (runStrict (0 + 1) ldaState).failed = false ∧ (runStrict (0 + 1) badState).failed = true ∧
      (runStrict (1 + 1) ldaState).failed = true := by decide

theorem meets_LenientDriverSkipsTheByte : core14Rows.lookup (badState.read badState.pc) = none := by decide

/-- The two ends of the range and the first targets beyond them, also across the top of the space. -/
theorem meets_AssemblerDisplacementReachesTheTarget :
    branchDisplacement 0x0000 0xFF82 = some 0x80 ∧ branchDisplacement 0x0000 0x0081 = some 0x7F ∧
      branchDisplacement 0x0000 0xFF81 = none ∧ branchDisplacement 0x0000 0x0082 = none := by decide

end Sys2Proof.Tests
end

/-! ## Proofs: state, status register and the frame of a step (10_state.md)

Two views of the model carry these proofs. A flag rule is a list of single-flag writes (`Status.putAll`), so
which flags it writes, and that it writes them whatever they held, are facts about lists of writes. An
instruction is an operation of the engine applied at its effective address (`exec_eq_apply`) or a branch
(`exec_eq_branchIf`), so a fact about steps is a fact about six operations and ten modes. -/

namespace Sys2Proof.Machine

open Sys2Proof.Claims

/-! ### Flag rules as lists of single-flag writes -/

/-- Write the listed flags, in order; each write is the `P.F <- b` of R36. -/
def Status.putAll (p : Status) : List (Flag × Bool) → Status
  | [] => p
  | w :: ws => (p.put w.1 w.2).putAll ws

/-- A flag that is not listed keeps its value (R36). -/
theorem Status.get_putAll_other {f : Flag} {ws : List (Flag × Bool)} (p : Status) (h : f ∉ ws.map Prod.fst) :
    (p.putAll ws).get f = p.get f := by
  induction ws generalizing p with
  | nil => rfl
  | cons w ws ih =>
    obtain ⟨hw, hws⟩ := not_or.mp (mt List.mem_cons.mpr h)
    exact (ih _ hws).trans (Status.get_put_other p w.2 hw)

/-- A listed flag gets a value that does not depend on the status before (R36). -/
theorem Status.get_putAll_written {f : Flag} {ws : List (Flag × Bool)} (p q : Status)
    (h : f ∈ ws.map Prod.fst) : (p.putAll ws).get f = (q.putAll ws).get f := by
  induction ws generalizing p q with
  | nil => exact absurd h List.not_mem_nil
  | cons w ws ih =>
    by_cases hws : f ∈ ws.map Prod.fst
    · exact ih _ _ hws
    · obtain rfl : f = w.1 := (List.mem_cons.mp h).resolve_right hws
      simp only [Status.putAll, Status.get_putAll_other _ hws, Status.get_put_same]

/-- The writes of ZN (R121). -/
def znWrites (r : Byte) : List (Flag × Bool) := [(.negative, r.getLsbD 7), (.zero, r == 0)]

/-- The writes of ADC's flags (R123). -/
def adcWrites (a m : Byte) (carryIn : Bool) : List (Flag × Bool) :=
  let r := adcResult a m carryIn
  [(.negative, r.getLsbD 7), (.overflow, ((m ^^^ r) &&& (a ^^^ r) &&& 0x80) != 0), (.zero, r == 0),
    (.carry, decide (adcSum a m carryIn > 0xFF))]

/-- The writes of ASL's flags (R127). -/
def aslWrites (m : Byte) : List (Flag × Bool) :=
  [(.negative, (aslResult m).getLsbD 7), (.zero, aslResult m == 0), (.carry, (m &&& 0x80) != 0)]

/-- The writes of CMP's flags (R129). -/
def cmpWrites (a m : Byte) : List (Flag × Bool) :=
  [(.negative, (a - m).getLsbD 7), (.zero, a == m), (.carry, decide (m.toNat ≤ a.toNat))]

/-- The writes of BIT's flags (R130). -/
def bitWrites (a m : Byte) : List (Flag × Bool) :=
  [(.negative, m.getLsbD 7), (.overflow, m.getLsbD 6), (.zero, (a &&& m) == 0)]

section FlagRules

variable (a m : Byte) (p : Status)

theorem zn_eq_putAll : p.zn m = p.putAll (znWrites m) := rfl

theorem adcFlags_eq_putAll : adcFlags a m p = p.putAll (adcWrites a m p.c) := rfl

theorem aslFlags_eq_putAll : aslFlags m p = p.putAll (aslWrites m) := rfl

theorem cmpFlags_eq_putAll : cmpFlags a m p = p.putAll (cmpWrites a m) := rfl

theorem bitFlags_eq_putAll : bitFlags a m p = p.putAll (bitWrites a m) := rfl

/-- ADC's own carry, both ways (R123). -/
theorem adcFlags_carry :
    (adcFlags a m p).get .carry = decide (255 < a.toNat + m.toNat + p.c.toNat) := rfl

end FlagRules

/-- Settles O3: `set` and `clear` are `put`, and every flag rule is a list of writes. -/
theorem setAndClearChangeOneFlag : Obligations.SetAndClearChangeOneFlag := by
  unfold Obligations.SetAndClearChangeOneFlag
  refine ⟨fun p f => ⟨Status.get_put_same p f true, Status.get_put_same p f false⟩,
    fun p f g h => ⟨Status.get_put_other p true h, Status.get_put_other p false h⟩,
    fun p f b => ?_, fun a m p q f => ⟨fun hf hc => ?_, adcFlags_carry a m p, fun hf => ?_, fun hf => ?_,
      fun hf => ?_, fun hf => ?_⟩⟩
  · cases b <;> rfl
  · rw [adcFlags_eq_putAll, adcFlags_eq_putAll, ← hc]
    exact Status.get_putAll_written p q hf
  · rw [zn_eq_putAll, zn_eq_putAll]
    exact Status.get_putAll_written p q hf
  · rw [aslFlags_eq_putAll, aslFlags_eq_putAll]
    exact Status.get_putAll_written p q hf
  · rw [cmpFlags_eq_putAll, cmpFlags_eq_putAll]
    exact Status.get_putAll_written p q hf
  · rw [bitFlags_eq_putAll, bitFlags_eq_putAll]
    exact Status.get_putAll_written p q hf

/-! ### The status byte -/

/-- The digit of the packed byte at a flag's position is the flag (R30, R37). -/
theorem Status.asByte_digit (p : Status) (f : Flag) :
    p.asByte.toNat / 2 ^ f.bit % 2 = (p.get f).toNat := by
  have hn := p.n.toNat_le
  have hv := p.v.toNat_le
  have hu := p.u.toNat_le
  have hb := p.b.toNat_le
  have hd := p.d.toNat_le
  have hi := p.i.toNat_le
  have hz := p.z.toNat_le
  have hc := p.c.toNat_le
  rw [Status.asByte, BitVec.toNat_ofNat]
  cases f <;> simp only [Flag.bit, Status.get] <;> omega

/-- The bit of the packed byte at a flag's position is the flag (R35, R37). -/
theorem Status.getLsbD_asByte (p : Status) (f : Flag) : p.asByte.getLsbD f.bit = p.get f := by
  rw [BitVec.getLsbD, Nat.testBit_eq_decide_div_mod_eq, Status.asByte_digit]
  cases p.get f <;> rfl

/-- The flag that `from_byte` makes is the byte's bit (R38). -/
theorem Status.get_fromByte (b : Byte) (f : Flag) : (Status.fromByte b).get f = b.getLsbD f.bit := by
  cases f <;> rfl

/-- Two statuses with the same flags are the same. -/
theorem Status.ext_get {p q : Status} (h : ∀ f : Flag, p.get f = q.get f) : p = q :=
  Status.ext (h .negative) (h .overflow) (h .unused) (h .break) (h .decimal) (h .interruptDisable) (h .zero)
    (h .carry)

/-- Every bit position of a byte is a flag's (R30). -/
theorem Flag.exists_bit_eq : ∀ k < 8, ∃ f : Flag, f.bit = k
  | 0, _ => ⟨.carry, rfl⟩
  | 1, _ => ⟨.zero, rfl⟩
  | 2, _ => ⟨.interruptDisable, rfl⟩
  | 3, _ => ⟨.decimal, rfl⟩
  | 4, _ => ⟨.break, rfl⟩
  | 5, _ => ⟨.unused, rfl⟩
  | 6, _ => ⟨.overflow, rfl⟩
  | 7, _ => ⟨.negative, rfl⟩

/-- Settles O1: `State.reset` evaluated, field by field. -/
theorem resetZeroesRegistersFlagsAndMemory : Obligations.ResetZeroesRegistersFlagsAndMemory := by
  unfold Obligations.ResetZeroesRegistersFlagsAndMemory
  refine ⟨rfl, rfl, rfl, rfl, rfl, rfl, fun f => ?_, fun addr => Memory.readKey_nil addr.toNat⟩
  cases f <;> rfl

/-- Settles O2, by the digits of the packed byte. -/
theorem getReadsTheFlagsBit : Obligations.GetReadsTheFlagsBit := by
  unfold Obligations.GetReadsTheFlagsBit
  exact ⟨fun p f => (Status.getLsbD_asByte p f).symm, rfl, rfl, rfl, rfl, rfl, rfl, rfl, rfl⟩

/-- Settles O4: both round trips agree flag by flag, which is bit by bit. -/
theorem statusByteRoundTrip : Obligations.StatusByteRoundTrip := by
  unfold Obligations.StatusByteRoundTrip
  refine ⟨fun s => Status.ext_get fun f => ?_, fun b => BitVec.eq_of_getLsbD_eq fun k hk => ?_⟩
  · rw [Status.get_fromByte, Status.getLsbD_asByte]
  · obtain ⟨f, rfl⟩ := Flag.exists_bit_eq k hk
    rw [Status.getLsbD_asByte, Status.get_fromByte]

/-! ### An instruction is an operation at an effective address, or a branch -/

theorem lowByte_zext16 (b : Byte) : lowByte (zext16 b) = b := by
  apply BitVec.eq_of_toNat_eq
  rw [toNat_lowByte, toNat_zext16]
  omega

theorem State.advance_zero (s : State) : s.advance 0 = s :=
  State.ext (BitVec.add_zero s.pc) rfl rfl rfl rfl rfl rfl rfl

/-- The effective address that a mode makes of the operand an instruction carries (R152 to R161); none for
the accumulator, the immediate and the displacement. -/
def effectiveAddress (m : Mode) (w : Addr) (s : State) : Option Addr :=
  match m with
  | .acc | .imm | .rel => none
  | .zp => some (eaZp (lowByte w))
  | .zpx => some (eaZpx (lowByte w) s)
  | .abs => some (eaAbs w)
  | .absx => some (eaAbsx w s)
  | .absy => some (eaAbsy w s)
  | .indx => some (eaIndx (lowByte w) s)
  | .indy => some (eaIndy (lowByte w) s)

/-- The byte that an operation is applied to (R122): `A` for the accumulator, the byte at the effective
address where there is one, and the byte the instruction carries otherwise. -/
def operandByte (m : Mode) (w : Addr) (s : State) : Byte :=
  match effectiveAddress m w s with
  | some addr => s.read addr
  | none => if m = .acc then s.a else lowByte w

/-- An instruction that is no branch is its operation, applied after its operand bytes (R122). -/
theorem exec_eq_apply {i : Instr} (h : i.operation.isBranch = false) (s : State) :
    exec i s = .next (Operation.apply i.operation (effectiveAddress i.mode i.operandWord s)
      (operandByte i.mode i.operandWord s) (s.advance i.mode.operandBytes)) := by
  cases i
  case bcc | bcs | beq | bne | bmi | bpl | bvc | bvs => exact absurd h Bool.noConfusion
  case aslAcc => exact congrArg (fun u => Host.Outcome.next (applyAslAcc u)) (State.advance_zero s).symm
  all_goals
    simp only [Instr.operation, Instr.mode, Instr.operandWord, effectiveAddress, operandByte, lowByte_zext16]
    rfl

/-- A branch is the common body over its predicate (R180, R181). -/
theorem exec_eq_branchIf {i : Instr} (h : i.operation.isBranch = true) (s : State) :
    exec i s = branchIf (Operation.predicate i.operation s.p) (lowByte i.operandWord) s := by
  cases i
  case bcc | bcs | beq | bne | bmi | bpl | bvc | bvs =>
    simp only [Instr.operandWord, lowByte_zext16]
    rfl
  all_goals exact absurd h Bool.noConfusion

/-! ### The flags a step writes -/

/-- An operation writes exactly the flags of its row in R40's table. -/
theorem apply_p_eq_putAll (o : Operation) (ea : Option Addr) (m : Byte) (s : State) :
    ∃ ws, ws.map Prod.fst = flagsWritten o ∧ (Operation.apply o ea m s).p = s.p.putAll ws := by
  cases o with
  | adc => exact ⟨_, rfl, adcFlags_eq_putAll s.a m s.p⟩
  | and => exact ⟨_, rfl, zn_eq_putAll (s.a &&& m) s.p⟩
  | asl =>
    cases ea with
    | none => exact ⟨_, rfl, aslFlags_eq_putAll s.a s.p⟩
    | some addr => exact ⟨_, rfl, aslFlags_eq_putAll (s.read addr) s.p⟩
  | cmp => exact ⟨_, rfl, cmpFlags_eq_putAll s.a m s.p⟩
  | bit => exact ⟨_, rfl, bitFlags_eq_putAll s.a m s.p⟩
  | lda => exact ⟨_, rfl, zn_eq_putAll m s.p⟩
  | bcc | bcs | beq | bne | bmi | bpl | bvc | bvs => exact ⟨[], rfl, rfl⟩

/-- A branch writes `pc` only (R180). -/
theorem branchIf_p {cond : Bool} {disp : Byte} {s t : State} (h : branchIf cond disp s = .next t) :
    t.p = s.p := by
  cases h
  cases cond <;> rfl

/-- An instruction leaves every flag outside its operation's row (R40). -/
theorem exec_get_other {i : Instr} {s t : State} {f : Flag} (h : exec i s = .next t)
    (hf : f ∉ flagsWritten i.operation) : t.p.get f = s.p.get f := by
  cases hb : i.operation.isBranch with
  | true =>
    rw [exec_eq_branchIf hb] at h
    rw [branchIf_p h]
  | false =>
    rw [exec_eq_apply hb] at h
    cases h
    obtain ⟨ws, hws, hp⟩ := apply_p_eq_putAll i.operation (effectiveAddress i.mode i.operandWord s)
      (operandByte i.mode i.operandWord s) (s.advance i.mode.operandBytes)
    rw [hp]
    exact Status.get_putAll_other s.p (hws ▸ hf)

theorem decodeTable_core14_mapped {op : Byte} {r : OpcodeRow} (h : core14Rows.lookup op = some r) :
    decodeTable core14 op = some (r.operation, r.mode) := by
  rw [decodeTable, core14_rows, h]
  rfl

/-- Settles O39, by the two ways a step goes. -/
theorem stepsWriteOnlyTheirFlags : Obligations.StepsWriteOnlyTheirFlags := by
  unfold Obligations.StepsWriteOnlyTheirFlags
  intro s t ht f hf
  obtain ⟨r, i, rest, u, hl, -, ho, -, hu, hs⟩ | ⟨-, hs⟩ := step_cases s
  · cases hs.symm.trans ht
    simp only [decodeTable_core14_mapped hl, ← ho] at hf
    simpa using exec_get_other hu hf
  · cases hs.symm.trans ht
    rfl

/-! ### Registers outside every operation -/

/-- `g` rewrites only what no operation, fetch or branch reads or writes: it leaves what they read and
commutes with each of the writes that they are made of. -/
structure OutsideOperations (g : State → State) : Prop where
  pc : ∀ s, (g s).pc = s.pc
  a : ∀ s, (g s).a = s.a
  p : ∀ s, (g s).p = s.p
  mem : ∀ s, (g s).mem = s.mem
  setA : ∀ s v, (g s).setA v = g (s.setA v)
  setP : ∀ s q, (g s).setP q = g (s.setP q)
  setPc : ∀ s w, (g s).setPc w = g (s.setPc w)
  write : ∀ s addr v, (g s).write addr v = g (s.write addr v)
  respond : ∀ s r, (g s).respond r = g (s.respond r)

/-- Rewriting `X` is outside every operation (R22). -/
theorem outsideOperations_x (v : Byte) : OutsideOperations fun s => { s with x := v } := by
  constructor <;> intros <;> rfl

/-- Rewriting `Y` is outside every operation (R22). -/
theorem outsideOperations_y (v : Byte) : OutsideOperations fun s => { s with y := v } := by
  constructor <;> intros <;> rfl

section Outside

variable {g : State → State} (hg : OutsideOperations g)

include hg

theorem OutsideOperations.read (s : State) (addr : Addr) : (g s).read addr = s.read addr := by
  rw [State.read, hg.mem, State.read]

theorem OutsideOperations.advance (s : State) (n : Nat) : (g s).advance n = g (s.advance n) := by
  rw [State.advance, hg.pc, hg.setPc, State.advance]

theorem OutsideOperations.fetchWindow (s : State) : fetchWindow (g s) = fetchWindow s := by
  simp only [Machine.fetchWindow, hg.read, hg.pc]

theorem OutsideOperations.takeInvalidOpcode (s : State) :
    takeInvalidOpcode (g s) = g (takeInvalidOpcode s) := by
  simp only [Machine.takeInvalidOpcode, hg.read, hg.pc, hg.advance, hg.respond]

theorem OutsideOperations.apply (o : Operation) (ea : Option Addr) (m : Byte) (s : State) :
    Operation.apply o ea m (g s) = g (Operation.apply o ea m s) := by
  cases o with
  | adc => simp only [Operation.apply, applyAdc, hg.a, hg.p, hg.setA, hg.setP]
  | and => simp only [Operation.apply, applyAnd, hg.a, hg.p, hg.setA, hg.setP]
  | asl =>
    cases ea with
    | none => simp only [Operation.apply, applyAslAcc, hg.a, hg.p, hg.setA, hg.setP]
    | some addr => simp only [Operation.apply, applyAslMem, hg.read, hg.p, hg.write, hg.setP]
  | cmp => simp only [Operation.apply, applyCmp, hg.a, hg.p, hg.setP]
  | bit => simp only [Operation.apply, applyBit, hg.a, hg.p, hg.setP]
  | lda => simp only [Operation.apply, applyLda, hg.p, hg.setA, hg.setP]
  | bcc | bcs | beq | bne | bmi | bpl | bvc | bvs => rfl

theorem OutsideOperations.branchIf {cond : Bool} {disp : Byte} {s t : State}
    (h : branchIf cond disp s = .next t) : branchIf cond disp (g s) = .next (g t) := by
  cases h
  cases cond with
  | true => exact congrArg Host.Outcome.next (by rw [hg.pc]; exact hg.setPc s _)
  | false => exact congrArg Host.Outcome.next (hg.advance s 1)

/-- An instruction whose mode's address does not depend on what `g` rewrites commutes with it. -/
theorem OutsideOperations.exec {i : Instr} {s t : State}
    (hea : ∀ w u, effectiveAddress i.mode w (g u) = effectiveAddress i.mode w u)
    (h : exec i s = .next t) : exec i (g s) = .next (g t) := by
  cases hb : i.operation.isBranch with
  | true =>
    rw [exec_eq_branchIf hb] at h ⊢
    rw [hg.p]
    exact hg.branchIf h
  | false =>
    rw [exec_eq_apply hb] at h ⊢
    cases h
    have hm : operandByte i.mode i.operandWord (g s) = operandByte i.mode i.operandWord s := by
      simp only [operandByte, hea, hg.read, hg.a]
    rw [hea, hm, hg.advance, hg.apply]

/-- So does a step, where the mode of the opcode at `pc` is such a mode. -/
theorem OutsideOperations.step {s t : State} (ht : step s = .next t)
    (hea : ∀ o m, decodeTable core14 (s.read s.pc) = some (o, m) →
      ∀ w u, effectiveAddress m w (g u) = effectiveAddress m w u) :
    step (g s) = .next (g t) := by
  obtain ⟨r, i, rest, u, hl, hd, -, hm, hu, hs⟩ | ⟨hl, hs⟩ := step_cases s
  · cases hs.symm.trans ht
    have hu' := hg.exec (hm ▸ hea _ _ (decodeTable_core14_mapped hl)) hu
    rw [Machine.step, fetchDecodeExecute, hg.fetchWindow, hd]
    simp only [hg.advance, hu', completeStep_next, hg.respond, hg.read, hg.pc, baseCycles, hl]
    rfl
  · cases hs.symm.trans ht
    rw [Machine.step, fetchDecodeExecute, hg.fetchWindow, decode_window_unmapped hl]
    exact congrArg Host.Outcome.next (hg.takeInvalidOpcode s)

end Outside

/-- Only ZPX, ABSX and INDX read `X` (R22, R150). -/
theorem effectiveAddress_x {m : Mode} (h : m ≠ .zpx ∧ m ≠ .absx ∧ m ≠ .indx) (v : Byte) (w : Addr)
    (s : State) : effectiveAddress m w { s with x := v } = effectiveAddress m w s := by
  obtain ⟨hzpx, habsx, hindx⟩ := h
  cases m with
  | zpx => exact absurd rfl hzpx
  | absx => exact absurd rfl habsx
  | indx => exact absurd rfl hindx
  | acc | imm | rel | zp | abs | absy | indy => rfl

/-- Only ABSY and INDY read `Y` (R22, R150). -/
theorem effectiveAddress_y {m : Mode} (h : m ≠ .absy ∧ m ≠ .indy) (v : Byte) (w : Addr) (s : State) :
    effectiveAddress m w { s with y := v } = effectiveAddress m w s := by
  obtain ⟨habsy, hindy⟩ := h
  cases m with
  | absy => exact absurd rfl habsy
  | indy => exact absurd rfl hindy
  | acc | imm | rel | zp | zpx | abs | absx | indx => rfl

/-- No step writes an index register (R22). -/
theorem step_xy {s t : State} (ht : step s = .next t) : t.x = s.x ∧ t.y = s.y := by
  obtain ⟨r, i, rest, u, -, -, -, -, hu, hs⟩ | ⟨-, hs⟩ := step_cases s
  · cases hs.symm.trans ht
    obtain ⟨hx, hy, -⟩ := exec_inert hu
    exact ⟨hx, hy⟩
  · cases hs.symm.trans ht
    exact ⟨rfl, rfl⟩

/-- Settles O40: rewriting an index register is outside every operation, and a mode that does not index with
it has the same effective address. -/
theorem indexRegistersAreReadOnlyByIndexedModes : Obligations.IndexRegistersAreReadOnlyByIndexedModes := by
  unfold Obligations.IndexRegistersAreReadOnlyByIndexedModes
  exact ⟨fun s t ht => step_xy ht,
    fun s t v ht hm => (outsideOperations_x v).step ht fun o m hd => effectiveAddress_x (hm o m hd) v,
    fun s t v ht hm => (outsideOperations_y v).step ht fun o m hd => effectiveAddress_y (hm o m hd) v⟩

end Sys2Proof.Machine

/-! ## Proofs: memory (20_memory.md)

`lastWritten` and the loader both go through an image in order, so what an address reads after a load is
decided by whether any write of the image names it (`WrittenBy`). -/

namespace Sys2Proof.Machine

open Sys2Proof.Claims

/-- Some write of the image names the address. -/
def WrittenBy (image : List (Addr × Byte)) (addr : Addr) : Prop := ∃ w ∈ image, w.1 = addr

theorem writtenBy_cons {w : Addr × Byte} {rest : List (Addr × Byte)} {addr : Addr} :
    WrittenBy (w :: rest) addr ↔ w.1 = addr ∨ WrittenBy rest addr :=
  List.exists_mem_cons_iff (fun v : Addr × Byte => v.1 = addr) w rest

/-! ### The last written byte -/

section LastWritten

variable {w : Addr × Byte} {rest : List (Addr × Byte)} {addr : Addr}

/-- A write that a later one overwrites does not count. -/
theorem lastWritten_cons_of_writtenBy (h : WrittenBy rest addr) :
    lastWritten addr (w :: rest) = lastWritten addr rest := if_pos h

/-- A write that no later one overwrites decides its address. -/
theorem lastWritten_cons_of_not_writtenBy (h : ¬ WrittenBy rest addr) :
    lastWritten addr (w :: rest) = if w.1 = addr then w.2 else 0x00 := if_neg h

theorem lastWritten_of_not_writtenBy {image : List (Addr × Byte)} (h : ¬ WrittenBy image addr) :
    lastWritten addr image = 0x00 := by
  cases image with
  | nil => rfl
  | cons w rest =>
    obtain ⟨hw, hrest⟩ := not_or.mp (mt writtenBy_cons.mpr h)
    rw [lastWritten_cons_of_not_writtenBy hrest, if_neg hw]

end LastWritten

/-! ### Reading after a load -/

/-- Every address reads 0x00 on a constructed core (R41, R62). -/
theorem State.read_reset (addr : Addr) : State.reset.read addr = 0x00 := Memory.readKey_nil addr.toNat

/-- An address that the image does not write keeps its byte (R63). -/
theorem State.read_load_of_not_writtenBy {image : List (Addr × Byte)} {addr : Addr} (s : State)
    (h : ¬ WrittenBy image addr) : (s.load image).read addr = s.read addr := by
  induction image generalizing s with
  | nil => rfl
  | cons w rest ih =>
    obtain ⟨hw, hrest⟩ := not_or.mp (mt writtenBy_cons.mpr h)
    exact (ih (s.write w.1 w.2) hrest).trans (Memory.read_write_other s.mem w.2 hw)

/-- An address that the image writes reads the byte written there last, whatever the core held (R62). -/
theorem State.read_load_of_writtenBy {image : List (Addr × Byte)} {addr : Addr} (s : State)
    (h : WrittenBy image addr) : (s.load image).read addr = lastWritten addr image := by
  induction image generalizing s with
  | nil =>
    obtain ⟨w, hw, -⟩ := h
    exact absurd hw List.not_mem_nil
  | cons w rest ih =>
    by_cases hrest : WrittenBy rest addr
    · exact (ih (s.write w.1 w.2) hrest).trans (lastWritten_cons_of_writtenBy hrest).symm
    · obtain rfl : w.1 = addr := (writtenBy_cons.mp h).resolve_right hrest
      calc (s.load (w :: rest)).read w.1
        _ = (s.write w.1 w.2).read w.1 := State.read_load_of_not_writtenBy _ hrest
        _ = w.2 := Memory.read_write_same s.mem w.1 w.2
        _ = lastWritten w.1 (w :: rest) := by rw [lastWritten_cons_of_not_writtenBy hrest, if_pos rfl]

/-- Settles O6: an address of a loaded core is one that the image writes or one that still reads 0x00. -/
theorem memoryReadsTheLastWrite : Obligations.MemoryReadsTheLastWrite := by
  unfold Obligations.MemoryReadsTheLastWrite
  refine ⟨fun image addr => ?_, fun m addr b v =>
    ⟨Memory.read_write_same m addr v, fun hb => Memory.read_write_other m v hb.symm⟩⟩
  by_cases h : WrittenBy image addr
  · exact State.read_load_of_writtenBy State.reset h
  · rw [launch, State.read_load_of_not_writtenBy State.reset h, State.read_reset,
      lastWritten_of_not_writtenBy h]

end Sys2Proof.Machine

/-! ## Proofs: the ALU operations (40_alu_operations.md) -/

namespace Sys2Proof.Machine

/-! ### The common Zero and Negative derivation -/

/-- Z after ZN tells whether the result is 0, whatever Z was (R121). -/
theorem Status.zn_z_eq_true_iff (p : Status) (r : Byte) : (p.zn r).z = true ↔ r = 0x00 := by
  rw [Status.zn_z, beq_iff_eq]

/-- ZN's list of writes holds Z and N and no other flag (R121). -/
theorem mem_znWrites_iff {f : Flag} {r : Byte} :
    f ∈ (znWrites r).map Prod.fst ↔ f = .negative ∨ f = .zero := by
  simp [znWrites]

/-- The frame of ZN (R121). -/
theorem Status.get_zn_other {f : Flag} (p : Status) (r : Byte) (hz : f ≠ .zero) (hn : f ≠ .negative) :
    (p.zn r).get f = p.get f := by
  have hf : f ∉ (znWrites r).map Prod.fst := mt mem_znWrites_iff.mp (not_or.mpr ⟨hn, hz⟩)
  rw [zn_eq_putAll, Status.get_putAll_other p hf]

/-- Settles O20: Z and N are read off the result, and a flag outside ZN's list of writes keeps its value. -/
theorem zeroAndNegativeComeFromTheResult : Obligations.ZeroAndNegativeComeFromTheResult := by
  unfold Obligations.ZeroAndNegativeComeFromTheResult
  exact fun p r => ⟨Status.zn_z_eq_true_iff p r, Status.zn_n p r, fun _ hz hn => Status.get_zn_other p r hz hn⟩

end Sys2Proof.Machine

/-! ## Proofs: the addressing modes (41_addressing_modes.md)

REL is the one mode whose arithmetic is signed: its displacement is widened from two's complement, so the
target is first computed in the integers. -/

namespace Sys2Proof.Machine

/-- Moving past one operand byte wraps at the top of the address space (R10). -/
theorem toNat_add_one (w : Addr) : (w + 1).toNat = (w.toNat + 1) % 65536 := BitVec.toNat_add w 1

/-! ### The relative mode -/

/-- A byte read as two's complement, over its unsigned value (R10). -/
theorem toInt_byte (b : Byte) :
    b.toInt = if b.toNat < 128 then (b.toNat : Int) else b.toNat - 256 := by
  rw [BitVec.toInt_eq_toNat_cond]
  omega

/-- Widening adds the byte's two's-complement value, modulo 65536 (R10). -/
theorem toNat_add_sext16 (w : Addr) (b : Byte) :
    ((w + sext16 b).toNat : Int) = ((w.toNat : Int) + b.toInt) % 65536 := by
  have hsext : ((sext16 b).toNat : Int) = b.toInt % 65536 := by
    rw [sext16, BitVec.signExtend, BitVec.toNat_ofInt]
    exact Int.toNat_of_nonneg (Int.emod_nonneg _ (by decide))
  rw [BitVec.toNat_add]
  omega

/-- The target counts from the address after the displacement byte (R154). -/
theorem toNat_branchTarget (pc : Addr) (disp : Byte) :
    ((branchTarget pc disp).toNat : Int) = ((pc.toNat : Int) + 1 + disp.toInt) % 65536 := by
  rw [branchTarget, toNat_add_sext16, toNat_add_one]
  omega

/-- Settles O16: the displacement is the byte at `pc` as two's complement, and the resolver's `pc` is the
target it gives. -/
theorem relativeTargetIsSignedFromTheNextInstruction :
    Obligations.RelativeTargetIsSignedFromTheNextInstruction := by
  unfold Obligations.RelativeTargetIsSignedFromTheNextInstruction
  exact fun s => ⟨(s.read s.pc).toInt, toInt_byte (s.read s.pc), toNat_branchTarget s.pc (s.read s.pc)⟩

/-! ### The accumulator and the immediate -/

/-- ASL's result is twice its input, modulo 256 (R127). -/
theorem toNat_aslResult (m : Byte) : (aslResult m).toNat = (2 * m.toNat) % 256 := by
  rw [aslResult, BitVec.toNat_shiftLeft, Nat.shiftLeft_eq]
  omega

/-- ASL without an effective address puts its result in `A` (R127, R152). -/
theorem apply_asl_none_a (m : Byte) (s : State) : (Operation.apply .asl none m s).a = aslResult s.a :=
  congrArg State.a (applyAslAcc_eq s)

/-- Settles O15: ACC's and IMM's lines of the resolver, with ASL's result in `A` and the wrap of `pc`. -/
theorem accumulatorAndImmediateModes : Obligations.AccumulatorAndImmediateModes := by
  unfold Obligations.AccumulatorAndImmediateModes
  intro s
  have hasl : (Operation.apply .asl none s.a s).a.toNat = (2 * s.a.toNat) % 256 := by
    rw [apply_asl_none_a, toNat_aslResult]
  exact ⟨rfl, rfl, rfl, hasl, rfl, toNat_add_one s.pc, rfl⟩

end Sys2Proof.Machine

/-! ## Proofs: the branches (42_branches.md)

A REL row of the opcode map decodes to a branch that carries the byte after the opcode, so its step is the
common body of R180 over that byte, and the engine's call on the same row lists the accesses of either path. -/

namespace Sys2Proof.Machine

open Sys2Proof.Claims

/-- Mode REL makes branches only (R96), and the byte a branch carries is its first operand byte (R91). -/
theorem build_rel {o : Operation} {b1 b2 : Byte} {i : Instr} (h : Instr.build o .rel b1 b2 = some i) :
    i.operation = o ∧ i.operation.isBranch = true ∧ lowByte i.operandWord = b1 := by
  cases o
  case bcc | bcs | beq | bne | bmi | bpl | bvc | bvs =>
    cases h
    exact ⟨rfl, rfl, lowByte_zext16 b1⟩
  all_goals cases h

/-- A pair in the decode table comes from a row of the opcode map (R92). -/
theorem exists_row_of_decodeTable_core14 {op : Byte} {o : Operation} {m : Mode}
    (h : decodeTable core14 op = some (o, m)) :
    ∃ r, core14Rows.lookup op = some r ∧ r.operation = o ∧ r.mode = m := by
  obtain ⟨r, hl, hr⟩ := Option.map_eq_some_iff.mp h
  cases hr
  exact ⟨r, hl, rfl, rfl⟩

section BranchRow

variable {s : State} {r : OpcodeRow} (hl : core14Rows.lookup (s.read s.pc) = some r) (hm : r.mode = .rel)

include hl hm

/-- The step of a REL row is the common branch body, over the row's predicate and the byte after the opcode
(R180, R200). -/
theorem step_eq_branchIf :
    step s = completeStep
      (branchIf (Operation.predicate r.operation s.p) (s.read (s.pc + 1)) (s.advance 1)) r.cycles := by
  obtain ⟨i, hi⟩ := build_of_row (lookup_mem hl) (s.read (s.pc + 1)) 0
  rw [hm] at hi
  have hdecode : decode (fetchWindow s) = .ok (i, [s.read (s.pc + 2)]) := by
    simp only [decode, fetchWindow, hl, hm, Mode.operandBytes, takeOperands, hi]
  obtain ⟨ho, hbranch, hdisp⟩ := build_rel hi
  simp only [step, fetchDecodeExecute, hdecode, exec_eq_branchIf hbranch, ho, hdisp, baseCycles, hl,
    State.advance_p, Option.map_some, Option.getD_some]

/-- Taken (R182): the step goes to the target. -/
theorem step_of_branch_taken (hp : Operation.predicate r.operation s.p = true) :
    step s = .next (((s.advance 1).setPc (branchTarget (s.pc + 1) (s.read (s.pc + 1)))).respond
      (.ok r.cycles)) := by
  rw [step_eq_branchIf hl hm, hp]
  rfl

/-- Not taken (R183): the step goes past the displacement. -/
theorem step_of_branch_not_taken (hp : Operation.predicate r.operation s.p = false) :
    step s = .next (((s.advance 1).advance 1).respond (.ok r.cycles)) := by
  rw [step_eq_branchIf hl hm, hp]
  rfl

/-- Taken (R182): the opcode and the displacement are read. -/
theorem accesses_of_branch_taken (hp : Operation.predicate r.operation s.p = true) :
    (engineCall core14 s).accesses = [.read s.pc, .read (s.pc + 1)] := by
  rw [engineCall_branch (T := core14) hl hm, if_pos hp, Call.finish_accesses]

/-- Not taken (R183): the opcode alone is read. -/
theorem accesses_of_branch_not_taken (hp : Operation.predicate r.operation s.p = false) :
    (engineCall core14 s).accesses = [.read s.pc] := by
  rw [engineCall_branch (T := core14) hl hm, if_neg (Bool.eq_false_iff.mp hp), Call.finish_accesses]

end BranchRow

/-- The target counted from the opcode's address (R182). -/
theorem toNat_branchTarget_add_one (a : Addr) (disp : Byte) :
    ((branchTarget (a + 1) disp).toNat : Int) = ((a.toNat : Int) + 2 + disp.toInt) % 65536 := by
  rw [toNat_branchTarget, toNat_add_one]
  omega

/-- The address past opcode and displacement, counted from the opcode's (R183). -/
theorem toNat_add_one_add_one (a : Addr) : (a + 1 + 1).toNat = (a.toNat + 2) % 65536 := by
  rw [toNat_add_one, toNat_add_one]
  omega

/-- Settles O31, by the two paths of the branch body; either writes `pc` and the returned value only. -/
theorem branchStepsGoToTargetOrPastDisplacement : Obligations.BranchStepsGoToTargetOrPastDisplacement := by
  unfold Obligations.BranchStepsGoToTargetOrPastDisplacement
  intro s o ho
  obtain ⟨r, hl, rfl, hm⟩ := exists_row_of_decodeTable_core14 ho
  cases hp : Operation.predicate r.operation s.p with
  | true =>
    exact ⟨_, step_of_branch_taken hl hm hp,
      fun _ => ⟨toNat_branchTarget_add_one s.pc _, accesses_of_branch_taken hl hm hp⟩,
      fun h => Bool.noConfusion h, rfl, rfl, rfl, rfl, rfl, fun _ => rfl⟩
  | false =>
    exact ⟨_, step_of_branch_not_taken hl hm hp, fun h => Bool.noConfusion h,
      fun _ => ⟨toNat_add_one_add_one s.pc, accesses_of_branch_not_taken hl hm hp⟩,
      rfl, rfl, rfl, rfl, rfl, fun _ => rfl⟩

end Sys2Proof.Machine

/-! ## Proofs: fetch, decode and execute (43_fetch_decode_execute.md)

What decoding makes of an opcode byte and two operand bytes is an answer of the opcode map, the operand bytes
entering the instruction but neither its operation, nor its mode, nor whether there is one (R207, R99). -/

namespace Sys2Proof.Machine

open Sys2Proof.Claims

section OpcodeByte

variable {op : Byte}

/-- An unmapped opcode byte rejects any list that it begins (R98). -/
theorem decode_unmapped (h : core14Rows.lookup op = none) (rest : List Byte) :
    decode (op :: rest) = .error (.unmapped op) := by
  simp only [decode, h]

/-- No mode takes more than two operand bytes (R151). -/
theorem exists_takeOperands (m : Mode) (b1 b2 : Byte) (rest : List Byte) :
    ∃ c1 c2 rest', takeOperands m.operandBytes (b1 :: b2 :: rest) = some (c1, c2, rest') := by
  cases m <;> exact ⟨_, _, _, rfl⟩

/-- A mapped opcode byte decodes to its row's operation and mode with any two bytes after it (R99). -/
theorem exists_decode_of_row {r : OpcodeRow} (h : core14Rows.lookup op = some r) (b1 b2 : Byte)
    (rest : List Byte) :
    ∃ i rest', decode (op :: b1 :: b2 :: rest) = .ok (i, rest') ∧ i.operation = r.operation ∧
      i.mode = r.mode := by
  obtain ⟨c1, c2, rest', ht⟩ := exists_takeOperands r.mode b1 b2 rest
  obtain ⟨i, hi⟩ := build_of_row (lookup_mem h) c1 c2
  exact ⟨i, rest', by simp only [decode, h, ht, hi], build_operation_mode hi⟩

end OpcodeByte

/-- The decoded operation and mode, or the rejection, are those of the opcode byte in the decode table. -/
theorem decode_map_operation_mode (op b1 b2 : Byte) (rest : List Byte) :
    (decode (op :: b1 :: b2 :: rest)).map (fun r => (r.1.operation, r.1.mode)) =
      (decodeTable core14 op).elim (.error (.unmapped op)) .ok := by
  cases h : core14Rows.lookup op with
  | none =>
    rw [decode_unmapped h, decodeTable, core14_rows, h]
    rfl
  | some r =>
    obtain ⟨i, rest', hd, ho, hm⟩ := exists_decode_of_row h b1 b2 rest
    rw [hd, decodeTable_core14_mapped h, ← ho, ← hm]
    rfl

/-- Settles O13: either side of each equation is the decode table's answer for the one opcode byte, and the
row of a mapped byte makes an instruction of any operand bytes. -/
theorem decodeReadsOnlyTheOpcodeByte : Obligations.DecodeReadsOnlyTheOpcodeByte := by
  unfold Obligations.DecodeReadsOnlyTheOpcodeByte
  refine ⟨fun op b1 b2 c1 c2 rest rest' => ?_, fun s s' hpc => ?_, fun op b1 b2 rest hop => ?_⟩
  · exact (decode_map_operation_mode op b1 b2 rest).trans (decode_map_operation_mode op c1 c2 rest').symm
  · rw [fetchWindow, fetchWindow, hpc, decode_map_operation_mode, decode_map_operation_mode]
  · obtain ⟨r, hr⟩ := Option.ne_none_iff_exists'.mp hop
    obtain ⟨i, rest', hd, -, -⟩ := exists_decode_of_row hr b1 b2 rest
    exact ⟨(i, rest'), hd⟩

end Sys2Proof.Machine

/-! ## Proofs: encoding (30_encoding.md)

`encode` is written row by row and the decoder from the table. They meet in one description of an instruction:
an opcode byte that the map gives the instruction's operation and mode, then as many of the two bytes of its
operand as the mode reads. -/

namespace Sys2Proof

open Sys2Proof.Machine Sys2Proof.Claims

/-! ### The shape of an encoding -/

theorem highByte_zext16 (b : Byte) : highByte (zext16 b) = 0 := by
  apply BitVec.eq_of_toNat_eq
  rw [toNat_highByte, toNat_zext16]
  exact Nat.div_eq_of_lt b.isLt

/-- Every instruction has the shape that Laws/PerInstr.lean states of each constructor. -/
theorem encodingShape (i : Instr) : Laws.EncodingShape.Statement i := by
  cases i <;> exact ⟨rfl, rfl, rfl, rfl⟩

/-- The operand bytes that a mode reads of an operand, low byte first (R91, R68). -/
def operandBytesOf (m : Mode) (w : Addr) : List Byte := [lowByte w, highByte w].take m.operandBytes

/-- An encoding is one opcode byte and the operand bytes (R90, R91). -/
theorem exists_encode_eq_cons (i : Instr) : ∃ op, encode i = op :: operandBytesOf i.mode i.operandWord := by
  cases i
  case aslAcc => exact ⟨_, rfl⟩
  case adcAbs | adcAbsx | adcAbsy | andAbs | andAbsx | andAbsy | aslAbs | aslAbsx | cmpAbs | cmpAbsx | cmpAbsy
    | bitAbs | ldaAbs | ldaAbsx | ldaAbsy => exact ⟨_, rfl⟩
  all_goals
    simp only [Instr.operandWord, operandBytesOf, lowByte_zext16]
    exact ⟨_, rfl⟩

/-- The opcode byte of an encoding has a row, which gives the instruction's operation and mode (R92). -/
theorem exists_row_of_encode (i : Instr) :
    ∃ r, encode i = r.opcode :: operandBytesOf i.mode i.operandWord ∧ core14Rows.lookup r.opcode = some r ∧
      r.operation = i.operation ∧ r.mode = i.mode := by
  obtain ⟨op, hop⟩ := exists_encode_eq_cons i
  obtain ⟨-, hrow, -, -⟩ := encodingShape i
  rw [hop] at hrow
  obtain ⟨r, hr, hpair⟩ := Option.map_eq_some_iff.mp hrow
  obtain ⟨ho, hm⟩ := Prod.mk.inj hpair
  have hr : core14Rows.lookup op = some r := hr
  obtain rfl := lookup_opcode hr
  exact ⟨r, hop, hr, ho, hm⟩

/-! ### Decoding an encoding -/

/-- The operand of an instruction is zero above the bytes that its mode reads, so cutting them off gives both
bytes back. -/
theorem takeOperands_operandBytesOf (i : Instr) (rest : List Byte) :
    takeOperands i.mode.operandBytes (operandBytesOf i.mode i.operandWord ++ rest) =
      some (lowByte i.operandWord, highByte i.operandWord, rest) := by
  cases i
  case aslAcc => rfl
  case adcAbs | adcAbsx | adcAbsy | andAbs | andAbsx | andAbsy | aslAbs | aslAbsx | cmpAbs | cmpAbsx | cmpAbsy
    | bitAbs | ldaAbs | ldaAbsx | ldaAbsy => rfl
  all_goals
    simp only [Instr.operandWord, operandBytesOf, lowByte_zext16, highByte_zext16]
    rfl

/-- An instruction is built again from its operation, its mode and the two bytes of its operand. -/
theorem build_operandWord (i : Instr) :
    Instr.build i.operation i.mode (lowByte i.operandWord) (highByte i.operandWord) = some i := by
  cases i
  case aslAcc => rfl
  all_goals
    simp only [Instr.operation, Instr.mode, Instr.operandWord, Instr.build, lowByte_zext16, joinBytes_high_low]

/-- Settles O11: the opcode byte finds the instruction's row, and the operand bytes build it again. -/
theorem decodeUndoesEncode : Obligations.DecodeUndoesEncode := by
  unfold Obligations.DecodeUndoesEncode
  intro i rest
  obtain ⟨r, hi, hl, ho, hm⟩ := exists_row_of_encode i
  simp only [hi, List.cons_append, decode, hl, ho, hm, takeOperands_operandBytesOf, build_operandWord]

/-! ### Encoding what was decoded -/

/-- What decoding a list means: a row for its first byte, the operand bytes cut off, an instruction built. -/
theorem decode_eq_ok {bs rest : List Byte} {i : Instr} (h : decode bs = .ok (i, rest)) :
    ∃ r c1 c2 bs', bs = r.opcode :: bs' ∧ core14Rows.lookup r.opcode = some r ∧
      takeOperands r.mode.operandBytes bs' = some (c1, c2, rest) ∧
      Instr.build r.operation r.mode c1 c2 = some i := by
  cases bs with
  | nil => cases h
  | cons op bs' =>
    cases hl : core14Rows.lookup op with
    | none => simp only [decode, hl, reduceCtorEq] at h
    | some r =>
      cases ht : takeOperands r.mode.operandBytes bs' with
      | none => simp only [decode, hl, ht, reduceCtorEq] at h
      | some ops =>
        obtain ⟨c1, c2, rest'⟩ := ops
        cases hj : Instr.build r.operation r.mode c1 c2 with
        | none => simp only [decode, hl, ht, hj, reduceCtorEq] at h
        | some j =>
          simp only [decode, hl, ht, hj] at h
          cases h
          obtain rfl := lookup_opcode hl
          exact ⟨r, c1, c2, bs', rfl, hl, ht, hj⟩

/-- The bytes an instruction is built of are those of its operand, as far as its mode reads them. -/
theorem operandBytesOf_of_build {o : Operation} {m : Mode} {c1 c2 : Byte} {i : Instr}
    (h : Instr.build o m c1 c2 = some i) :
    operandBytesOf i.mode i.operandWord = [c1, c2].take m.operandBytes := by
  cases o <;> cases m <;> cases h
  all_goals
    simp [operandBytesOf, Instr.mode, Instr.operandWord, Mode.operandBytes, lowByte_zext16, lowByte_joinBytes,
      highByte_joinBytes]

/-- Cutting operand bytes off a list removes them from its head. -/
theorem takeOperands_eq_some {m : Mode} {bs rest : List Byte} {c1 c2 : Byte}
    (h : takeOperands m.operandBytes bs = some (c1, c2, rest)) :
    bs = [c1, c2].take m.operandBytes ++ rest := by
  unfold takeOperands at h
  split at h <;> cases h <;> simp [*]

/-- An operation in a mode has one row: no two opcode bytes mean one instruction (R96). -/
theorem row_unique {r r' : OpcodeRow} (h : r ∈ core14Rows) (h' : r' ∈ core14Rows)
    (ho : r.operation = r'.operation) (hm : r.mode = r'.mode) : r = r' :=
  List.inj_on_of_nodup_map (f := fun r : OpcodeRow => (r.operation, r.mode)) (by decide) h h'
    (Prod.ext ho hm)

/-- Settles O12: the row of the first byte is the row of the instruction's own encoding, and the operand bytes
cut off are those of its operand. -/
theorem encodeUndoesDecode : Obligations.EncodeUndoesDecode := by
  unfold Obligations.EncodeUndoesDecode
  intro bs rest i h
  obtain ⟨r, c1, c2, bs', rfl, hl, ht, hbuild⟩ := decode_eq_ok h
  obtain ⟨r', hi, hl', ho, hm⟩ := exists_row_of_encode i
  obtain ⟨hio, him⟩ := build_operation_mode hbuild
  obtain rfl : r' = r := row_unique (lookup_mem hl') (lookup_mem hl) (ho.trans hio) (hm.trans him)
  rw [hi, operandBytesOf_of_build hbuild, takeOperands_eq_some ht]
  rfl

/-- A format has one to three bytes (R91). -/
theorem Format.length_bounds (f : Format) : 1 ≤ f.length ∧ f.length ≤ 3 := by
  cases f <;> decide

/-- Settles O14: the list begins with the instruction's encoding, which has its format's length. -/
theorem modeFormatGivesTheLength : Obligations.ModeFormatGivesTheLength := by
  unfold Obligations.ModeFormatGivesTheLength
  intro bs rest i h
  obtain ⟨-, -, hlength, -⟩ := encodingShape i
  obtain rfl := encodeUndoesDecode bs rest i h
  exact ⟨by rw [List.length_append, hlength], Format.length_bounds _⟩

/-- Settles O8: the 256 byte values are looked at one by one. -/
theorem opcodeMapFollowsTheBitPattern : Obligations.OpcodeMapFollowsTheBitPattern := by
  unfold Obligations.OpcodeMapFollowsTheBitPattern
  exact ⟨by decide, rfl⟩

/-- Settles O10: each example word decoded. -/
theorem exampleWordsDecode : Obligations.ExampleWordsDecode := by
  unfold Obligations.ExampleWordsDecode
  exact ⟨rfl, rfl, rfl, rfl, rfl, rfl, rfl, rfl, rfl, rfl⟩

end Sys2Proof

/-! ## Proofs: the engine and what every step keeps (43_fetch_decode_execute.md R200)

`step` decodes first and hands the operand to a meaning; the engine resolves the mode at `pc`. Both read the
same bytes, so they leave the same state (`step_eq_engineCall`). A call always ends with an operation
applied at a moved `pc` (`exists_engineCall_eq_finish`; a branch's operation does nothing), which gives the
invariants for every legal table, and those of `step` with the default one. -/

namespace Sys2Proof.Machine

open Sys2Proof.Claims

/-! ### The operand an instruction carries is the operand at `pc` -/

theorem length_operandBytesOf (m : Mode) (w : Addr) : (operandBytesOf m w).length = m.operandBytes := by
  cases m <;> rfl

/-- The bytes after the opcode are the operand bytes of what the window decodes to (R91, R200). -/
theorem operandBytesOf_of_decode_window {s : State} {i : Instr} {rest : List Byte}
    (h : decode (fetchWindow s) = .ok (i, rest)) :
    operandBytesOf i.mode i.operandWord = [s.read (s.pc + 1), s.read (s.pc + 2)].take i.mode.operandBytes := by
  obtain ⟨r, hi, -⟩ := exists_row_of_encode i
  have hbytes := encodeUndoesDecode _ _ _ h
  rw [hi, fetchWindow, List.cons_append, List.cons.injEq] at hbytes
  rw [hbytes.2, List.take_left' (length_operandBytesOf _ _)]

section Resolve

variable {m : Mode} {w : Addr} {s : State}
  (hw : operandBytesOf m w = [s.read s.pc, s.read (s.pc + 1)].take m.operandBytes)

/-- But for the relative mode, the resolver moves `pc` past the mode's operand bytes (R151). -/
theorem setPc_resolve_pc (hm : m ≠ .rel) : s.setPc (resolve m s).pc = s.advance m.operandBytes := by
  cases m with
  | rel => exact absurd rfl hm
  | acc => exact (State.advance_zero s).symm
  | imm | zp | zpx | indx | indy | abs | absx | absy => rfl

include hw

/-- But for the immediate, whose operand has an address at `pc` only, both views give one effective address
(R155 to R161). -/
theorem resolve_ea_eq_effectiveAddress (hm : m ≠ .imm) : (resolve m s).ea = effectiveAddress m w s := by
  cases m with
  | imm => exact absurd rfl hm
  | acc | rel => rfl
  | zp | zpx | indx | indy =>
    obtain ⟨hlow, -⟩ := List.cons.inj hw
    simp only [resolve, effectiveAddress, hlow]
  | abs | absx | absy =>
    obtain ⟨hlow, htail⟩ := List.cons.inj hw
    obtain ⟨hhigh, -⟩ := List.cons.inj htail
    simp only [resolve, effectiveAddress, operandWord, ← hlow, ← hhigh, joinBytes_high_low]

/-- Both views give one operand byte (R122). -/
theorem operandAt_eq_operandByte (hm : m ≠ .rel) : operandAt (resolve m s).ea s = operandByte m w s := by
  cases m with
  | rel => exact absurd rfl hm
  | acc => rfl
  | imm => exact (List.cons.inj hw).1.symm
  | zp | zpx | indx | indy | abs | absx | absy =>
    rw [resolve_ea_eq_effectiveAddress hw Mode.noConfusion]
    rfl

end Resolve

/-- Only ASL looks at where its operand came from (R122). -/
theorem apply_ea_irrelevant {o : Operation} (h : o ≠ .asl) (ea ea' : Option Addr) (m : Byte) (s : State) :
    Operation.apply o ea m s = Operation.apply o ea' m s := by
  cases o with
  | asl => exact absurd rfl h
  | adc | and | cmp | bit | lda | bcc | bcs | beq | bne | bmi | bpl | bvc | bvs => rfl

/-- There is no immediate ASL (R96). -/
theorem operation_ne_asl_of_imm {i : Instr} (h : i.mode = .imm) : i.operation ≠ .asl := by
  obtain ⟨hwf, -⟩ := encodingShape i
  intro ho
  rw [Instr.wellFormed, h, ho] at hwf
  cases hwf

/-- An instruction that is no branch is the engine's resolve and apply, where its operand stands at `pc`. -/
theorem exec_eq_resolve_apply {i : Instr} {s : State} (hb : i.operation.isBranch = false) (hm : i.mode ≠ .rel)
    (hw : operandBytesOf i.mode i.operandWord = [s.read s.pc, s.read (s.pc + 1)].take i.mode.operandBytes) :
    exec i s = .next (Operation.apply i.operation (resolve i.mode s).ea (operandAt (resolve i.mode s).ea s)
      (s.setPc (resolve i.mode s).pc)) := by
  rw [exec_eq_apply hb, operandAt_eq_operandByte hw hm, setPc_resolve_pc hm]
  by_cases himm : i.mode = .imm
  · rw [apply_ea_irrelevant (operation_ne_asl_of_imm himm)]
  · rw [resolve_ea_eq_effectiveAddress hw himm]

/-- The step is the engine's call at the default tables (R200). -/
theorem step_eq_engineCall (s : State) : step s = .next (engineCall core14 s).after := by
  obtain ⟨r, i, rest, u, hl, hd, ho, hm, hu, hs⟩ | ⟨hl, hs⟩ := step_cases s
  · by_cases hrel : r.mode = .rel
    · rw [step_eq_branchIf hl hrel, engineCall_branch (T := core14) hl hrel, branchIf_eq, completeStep_next]
      cases Operation.predicate r.operation s.p <;> rfl
    · have hlegal := legal_row (T := core14) hl
      have hb : i.operation.isBranch = false := by
        rw [ho]
        exact Bool.eq_false_iff.mpr (mt hlegal.1.mpr hrel)
      have hw : operandBytesOf i.mode i.operandWord =
          [(s.advance 1).read (s.advance 1).pc, (s.advance 1).read ((s.advance 1).pc + 1)].take
            i.mode.operandBytes := by
        rw [operandBytesOf_of_decode_window hd, State.read_advance, State.read_advance, State.advance_pc,
          BitVec.add_assoc]
        rfl
      rw [exec_eq_resolve_apply hb (hm ▸ hrel) hw] at hu
      cases hu
      rw [hs, engineCall_alu (T := core14) hl hrel, ho, hm]
      rfl
  · rw [hs, engineCall_unmapped (T := core14) hl]
    rfl

/-- The state a step leaves is that of the engine's call. -/
theorem after_eq_of_step {s t : State} (h : step s = .next t) : (engineCall core14 s).after = t := by
  rw [step_eq_engineCall] at h
  exact Host.Outcome.next.inj h

/-! ### What every call is, for every legal table -/

/-- A call fetches the opcode, applies an operation at some `pc`, and returns a value; where no operation is
applied it is as if a branch's were, which does nothing. -/
theorem exists_engineCall_eq_finish (T : Tables) (s : State) :
    ∃ o ea m w r later,
      engineCall T s = Call.finish r (Operation.apply o ea m (s.setPc w)) (.read s.pc :: later) := by
  cases hl : T.rows.lookup (s.read s.pc) with
  | none => exact ⟨.bcc, none, 0, _, _, _, engineCall_unmapped hl⟩
  | some row =>
    by_cases hm : row.mode = .rel
    · rw [engineCall_branch hl hm]
      split
      · exact ⟨.bcc, none, 0, _, _, _, rfl⟩
      · exact ⟨.bcc, none, 0, _, _, _, rfl⟩
    · exact ⟨_, _, _, _, _, _, engineCall_alu hl hm⟩

/-- Every call ends by returning its result (R200). -/
theorem engineCall_after_response (T : Tables) (s : State) :
    (engineCall T s).after.response = some (engineCall T s).result := by
  obtain ⟨o, ea, m, w, r, later, h⟩ := exists_engineCall_eq_finish T s
  rw [h]
  rfl

/-- Settles O35: decoded operand and resolved operand agree, so do the states. -/
theorem stepIsTheTableDrivenEngine : Obligations.StepIsTheTableDrivenEngine := by
  unfold Obligations.StepIsTheTableDrivenEngine
  exact fun s => ⟨step_eq_engineCall s, engineCall_after_response core14 s⟩

/-! ### What every call keeps, for every legal table -/

/-- No call writes `X`, `Y` or `SP` (R22, R23). -/
theorem engineCall_inert (T : Tables) (s : State) :
    (engineCall T s).after.x = s.x ∧ (engineCall T s).after.y = s.y ∧ (engineCall T s).after.sp = s.sp := by
  obtain ⟨o, ea, m, w, r, later, h⟩ := exists_engineCall_eq_finish T s
  obtain ⟨hx, hy, hsp, -⟩ := apply_inert o ea m (s.setPc w)
  rw [h]
  exact ⟨hx, hy, hsp⟩

/-- Every operation's row of R40's table lies in N, V, Z and C. -/
theorem flagsWritten_subset (o : Operation) : flagsWritten o ⊆ [.negative, .overflow, .zero, .carry] := by
  cases o <;> decide

/-- No call writes a flag other than N, V, Z and C (R32, R33, R40). -/
theorem engineCall_flags (T : Tables) (s : State) :
    FlagsSameBut [.negative, .overflow, .zero, .carry] s (engineCall T s).after := by
  intro f hf
  obtain ⟨o, ea, m, w, r, later, h⟩ := exists_engineCall_eq_finish T s
  obtain ⟨ws, hws, hp⟩ := apply_p_eq_putAll o ea m (s.setPc w)
  rw [h, Call.finish_after, State.respond_p, hp]
  exact Status.get_putAll_other s.p (hws ▸ fun hmem => hf (flagsWritten_subset o hmem))

/-- Every call keeps the memory canonical: it leaves the memory or makes one MemWrite (R67). -/
theorem engineCall_canonical (T : Tables) {s : State} (hs : s.Canonical) :
    (engineCall T s).after.Canonical := by
  obtain ⟨o, ea, m, w, r, later, h⟩ := exists_engineCall_eq_finish T s
  rw [State.Canonical, h, Call.finish_after, State.respond_mem]
  obtain hmem | ⟨addr, -, -, hmem⟩ := apply_mem o ea m (s.setPc w)
  · rw [hmem]
    exact hs
  · rw [hmem]
    exact Memory.write_wf hs _ _

/-- Settles O48: each part is a fact about a call; an unmapped byte's call only fetches. -/
theorem anyLegalTableKeepsInertState : Obligations.AnyLegalTableKeepsInertState := by
  unfold Obligations.AnyLegalTableKeepsInertState
  intro T s
  obtain ⟨hx, hy, hsp⟩ := engineCall_inert T s
  exact ⟨hx, hy, hsp, engineCall_flags T s, engineCall_canonical T,
    fun hnone => congrArg Call.after (engineCall_unmapped (Option.map_eq_none_iff.mp hnone))⟩

/-- Settles O44: a step is a call of the engine. -/
theorem stepKeepsMemoryCanonical : Obligations.StepKeepsMemoryCanonical := by
  unfold Obligations.StepKeepsMemoryCanonical
  intro s t hs ht
  rw [← after_eq_of_step ht]
  exact engineCall_canonical core14 hs

/-- The flags U, B, D and I, which nothing writes (R32, R33). -/
def inertFlags : List Flag := [.unused, .break, .decimal, .interruptDisable]

/-- The mask of R34 has no bit at another flag's position. -/
theorem mask_getLsbD_of_not_inert {f : Flag} (h : f ∉ inertFlags) : (0x3C : Byte).getLsbD f.bit = false := by
  cases f
  case negative | overflow | zero | carry => rfl
  all_goals exact absurd (by decide) h

/-- The mask of R34 sees those four flags only. -/
theorem asByte_mask_congr {p q : Status} (h : ∀ f ∈ inertFlags, p.get f = q.get f) :
    p.asByte &&& 0x3C = q.asByte &&& 0x3C := by
  refine BitVec.eq_of_getLsbD_eq fun k hk => ?_
  obtain ⟨f, rfl⟩ := Flag.exists_bit_eq k hk
  rw [BitVec.getLsbD_and, BitVec.getLsbD_and, Status.getLsbD_asByte, Status.getLsbD_asByte]
  by_cases hf : f ∈ inertFlags
  · rw [h f hf]
  · rw [mask_getLsbD_of_not_inert hf, Bool.and_false, Bool.and_false]

theorem not_mem_flags_of_inert {f : Flag} (h : f ∈ inertFlags) :
    f ∉ [Flag.negative, .overflow, .zero, .carry] := by
  revert f
  decide

/-- Every step keeps the inert registers and flags at their reset values (R27, R34). -/
theorem inertAtReset_step {s t : State} (hs : s.InertAtReset) (ht : step s = .next t) : t.InertAtReset := by
  obtain ⟨hx, hy, hsp, hp⟩ := hs
  obtain ⟨hx', hy', hsp'⟩ := engineCall_inert core14 s
  have hmask := asByte_mask_congr fun f hf => engineCall_flags core14 s f (not_mem_flags_of_inert hf)
  rw [after_eq_of_step ht] at hx' hy' hsp' hmask
  exact ⟨hx'.trans hx, hy'.trans hy, hsp'.trans hsp, hmask.trans hp⟩

/-- Settles O46: the invariant's four parts are what no call writes. -/
theorem stepKeepsInertStateAtReset : Obligations.StepKeepsInertStateAtReset := by
  unfold Obligations.StepKeepsInertStateAtReset
  exact fun s t => inertAtReset_step

/-- Settles O45: the reset values themselves. -/
theorem resetIsCanonicalAndInert : Obligations.ResetIsCanonicalAndInert := by
  unfold Obligations.ResetIsCanonicalAndInert
  exact ⟨Memory.wf_nil, rfl, rfl, rfl, rfl⟩

end Sys2Proof.Machine

/-! ## Proofs: what a step answers (43_fetch_decode_execute.md, 60_exceptions.md)

The two ways a step goes (`step_cases`) say what it returns; what it leaves is the engine's call. -/

namespace Sys2Proof.Machine

open Sys2Proof.Claims

/-! ### The returned value -/

/-- A step at a mapped byte returns `Ok` of the row's count. -/
theorem step_response_of_mapped {s t : State} {r : OpcodeRow} (hl : core14Rows.lookup (s.read s.pc) = some r)
    (ht : step s = .next t) : t.response = some (.ok r.cycles) := by
  obtain ⟨r', i, rest, u, hl', -, -, -, -, hs⟩ | ⟨hnone, -⟩ := step_cases s
  · cases hl'.symm.trans hl
    cases hs.symm.trans ht
    rfl
  · cases hnone.symm.trans hl

/-- A step at an unmapped byte takes the exception (R230). -/
theorem step_of_unmapped {s : State} (hl : core14Rows.lookup (s.read s.pc) = none) :
    step s = .next (takeInvalidOpcode s) := by
  obtain ⟨r, i, rest, u, hl', -⟩ | ⟨-, hs⟩ := step_cases s
  · cases hl'.symm.trans hl
  · exact hs

/-- A step returns InvalidOpcode exactly at an unmapped byte (R98, R230). -/
theorem response_invalidOpcode_iff {s t : State} (ht : step s = .next t) :
    (∃ op addr, t.response = some (.invalidOpcode op addr)) ↔ core14Rows.lookup (s.read s.pc) = none := by
  constructor
  · rintro ⟨op, addr, hinvalid⟩
    by_contra hmapped
    obtain ⟨r, hl⟩ := Option.ne_none_iff_exists'.mp hmapped
    cases hinvalid.symm.trans (step_response_of_mapped hl ht)
  · intro hl
    cases (step_of_unmapped hl).symm.trans ht
    exact ⟨_, _, rfl⟩

/-- Settles O9: at an unmapped byte the call ends before it resolves a mode; the 256 values are counted. -/
theorem unmappedBytesAndOnlyTheyAreInvalidOpcode : Obligations.UnmappedBytesAndOnlyTheyAreInvalidOpcode := by
  unfold Obligations.UnmappedBytesAndOnlyTheyAreInvalidOpcode
  refine ⟨fun s => ⟨_, step_eq_engineCall s, response_invalidOpcode_iff (step_eq_engineCall s)⟩,
    fun s hl => ?_, rfl⟩
  rw [engineCall_unmapped (T := core14) hl, Call.finish_accesses]

/-- Settles O33, by the exception's own equation. -/
theorem invalidOpcodeAdvancesPcAndNothingElse : Obligations.InvalidOpcodeAdvancesPcAndNothingElse := by
  unfold Obligations.InvalidOpcodeAdvancesPcAndNothingElse
  exact fun s hl => ⟨_, step_of_unmapped hl, toNat_add_one s.pc, rfl, rfl, rfl, rfl, rfl, rfl, fun _ => rfl⟩

/-- Settles O34: each of the two ways a step goes returns a value, and a step can be made from any state. -/
theorem stepAlwaysReturns : Obligations.StepAlwaysReturns := by
  unfold Obligations.StepAlwaysReturns
  intro s
  obtain ⟨r, i, rest, u, -, -, -, -, -, hs⟩ | ⟨-, hs⟩ := step_cases s
  · exact ⟨_, hs, .inl ⟨_, rfl⟩, _, step_eq_engineCall _⟩
  · exact ⟨_, hs, .inr ⟨_, _, rfl⟩, _, step_eq_engineCall _⟩

/-- Settles O32: every meaning completes, and completion adds the count. -/
theorem stepRunsTheDecodedInstruction : Obligations.StepRunsTheDecodedInstruction := by
  unfold Obligations.StepRunsTheDecodedInstruction
  intro s i rest hd
  obtain ⟨t, ht⟩ := exec_completes i (s.advance 1)
  have hexec : exec i { s with pc := s.pc + 1 } = .next t := ht
  rw [step, fetchDecodeExecute, hd, hexec]
  exact congrArg (completeStep · _) ht

/-- The counts of the opcode map are those of the grid of R274. -/
theorem cycles_eq_gridCycles : ∀ r ∈ core14Rows, r.cycles = gridCycles r.operation r.mode := by
  decide

/-- Settles O36: the count is the row's, and the row is that of the decoded instruction. -/
theorem stepReturnsTheBaseCycleCount : Obligations.StepReturnsTheBaseCycleCount := by
  unfold Obligations.StepReturnsTheBaseCycleCount
  intro s i rest hd
  obtain ⟨r, j, rest', u, hl, hd', ho, hm, -, hs⟩ | ⟨hl, -⟩ := step_cases s
  · cases hd'.symm.trans hd
    refine ⟨_, hs, ?_⟩
    rw [State.respond_response, cycles_eq_gridCycles r (lookup_mem hl), ho, hm]
  · cases (decode_window_unmapped hl).symm.trans hd

/-! ### What no step reads -/

/-- `g` rewrites only what a call does not look at: it keeps what fetch, resolver, predicate and operand read,
and commutes with a move of `pc` and with every operation. -/
structure UnreadByCalls (g : State → State) : Prop where
  pc : ∀ s, (g s).pc = s.pc
  read : ∀ s addr, (g s).read addr = s.read addr
  predicate : ∀ s o, Operation.predicate o (g s).p = Operation.predicate o s.p
  resolve : ∀ s m, resolve m (g s) = resolve m s
  operandAt : ∀ s ea, operandAt ea (g s) = operandAt ea s
  setPc : ∀ s w, (g s).setPc w = g (s.setPc w)
  apply : ∀ s o ea m, Operation.apply o ea m (g s) = g (Operation.apply o ea m s)

/-- A call after such a rewrite is the call with the rewrite made just before the value is returned. -/
theorem UnreadByCalls.exists_after {g : State → State} (hg : UnreadByCalls g) (T : Tables) (s : State) :
    ∃ u r, (engineCall T s).after = u.respond r ∧ (engineCall T (g s)).after = (g u).respond r := by
  have hread : (g s).read (g s).pc = s.read s.pc := by rw [hg.read, hg.pc]
  have hadvance : ∀ u n, (g u).advance n = g (u.advance n) := fun u n => by
    rw [State.advance, hg.pc, hg.setPc, State.advance]
  cases hl : T.rows.lookup (s.read s.pc) with
  | none =>
    refine ⟨_, _, congrArg Call.after (engineCall_unmapped hl), ?_⟩
    rw [engineCall_unmapped (hread ▸ hl), Call.finish_after, hread, hg.pc, hadvance]
  | some row =>
    have hl' : T.rows.lookup ((g s).read (g s).pc) = some row := hread ▸ hl
    by_cases hm : row.mode = .rel
    · rw [engineCall_branch hl hm, engineCall_branch hl' hm, hg.predicate, hg.pc, hg.read, hadvance, hadvance,
        hg.setPc]
      split
      · exact ⟨_, _, rfl, rfl⟩
      · exact ⟨_, _, rfl, rfl⟩
    · refine ⟨_, _, congrArg Call.after (engineCall_alu hl hm), ?_⟩
      rw [engineCall_alu hl' hm]
      simp only [Call.finish_after, hadvance, hg.resolve, hg.operandAt, hg.setPc, hg.apply]

/-- Rewriting the returned value (log entry 8). -/
theorem unreadByCalls_response (r : Option StepResult) : UnreadByCalls fun s => { s with response := r } where
  pc _ := rfl
  read _ _ := rfl
  predicate _ _ := rfl
  resolve _ m := by cases m <;> rfl
  operandAt _ ea := by cases ea <;> rfl
  setPc _ _ := rfl
  apply _ o ea _ := by
    cases o with
    | asl => cases ea <;> rfl
    | adc | and | cmp | bit | lda | bcc | bcs | beq | bne | bmi | bpl | bvc | bvs => rfl

/-- Rewriting one of the flags U, B, D and I (R32, R33, R124). -/
theorem unreadByCalls_flag {f : Flag} (hf : f ∈ inertFlags) (b : Bool) :
    UnreadByCalls fun s => { s with p := s.p.put f b } := by
  cases f
  case negative | overflow | zero | carry => exact absurd hf (by decide)
  all_goals exact
    { pc := fun _ => rfl
      read := fun _ _ => rfl
      predicate := fun _ o => by cases o <;> rfl
      resolve := fun _ m => by cases m <;> rfl
      operandAt := fun _ ea => by cases ea <;> rfl
      setPc := fun _ _ => rfl
      apply := fun _ o ea _ => by
        cases o with
        | asl => cases ea <;> rfl
        | adc | and | cmp | bit | lda | bcc | bcs | beq | bne | bmi | bpl | bvc | bvs => rfl }

/-- A step does not look at what an earlier call returned (R205). -/
theorem step_with_response (s : State) (r : Option StepResult) : step { s with response := r } = step s := by
  obtain ⟨u, v, h, h'⟩ := (unreadByCalls_response r).exists_after core14 s
  rw [step_eq_engineCall, step_eq_engineCall, h, h']
  rfl

/-- Settles O37: rewriting the returned value goes unread, and the next call overwrites it. -/
theorem returnedValueIsNeverRead : Obligations.ReturnedValueIsNeverRead := by
  unfold Obligations.ReturnedValueIsNeverRead
  exact step_with_response

/-- A step from a state with another value of an inert flag differs in that flag only. -/
theorem step_with_flag {f : Flag} (hf : f ∈ inertFlags) (b : Bool) {s t : State} (ht : step s = .next t) :
    step { s with p := s.p.put f b } = .next { t with p := t.p.put f b } := by
  obtain ⟨u, v, h, h'⟩ := (unreadByCalls_flag hf b).exists_after core14 s
  rw [← after_eq_of_step ht, step_eq_engineCall, h, h']
  rfl

/-- Rewriting `SP` is outside every operation (R23). -/
theorem outsideOperations_sp (v : Byte) : OutsideOperations fun s => { s with sp := v } := by
  constructor <;> intros <;> rfl

/-- Settles O41: what a call keeps, and that rewriting `SP` or an inert flag goes unread. -/
theorem stackPointerAndUnusedFlagsAreInert : Obligations.StackPointerAndUnusedFlagsAreInert := by
  unfold Obligations.StackPointerAndUnusedFlagsAreInert
  intro s t ht
  obtain ⟨-, -, hsp⟩ := engineCall_inert core14 s
  have hflags := engineCall_flags core14 s
  rw [after_eq_of_step ht] at hsp hflags
  refine ⟨hsp, hflags .unused (by decide), hflags .break (by decide), hflags .decimal (by decide),
    hflags .interruptDisable (by decide), fun v => ?_, fun f b hf => step_with_flag hf b ht⟩
  refine (outsideOperations_sp v).step ht fun o m _ w u => ?_
  cases m <;> rfl

/-! ### `pc` after a step -/

/-- R181's table and the engine's predicate say the same. -/
theorem branchTaken_iff_predicate (o : Operation) (p : Status) :
    branchTaken o p ↔ Operation.predicate o p = true := by
  cases o <;> simp [branchTaken, Operation.predicate]

/-- No operation moves `pc` (R122). -/
theorem apply_pc (o : Operation) (ea : Option Addr) (m : Byte) (s : State) :
    (Operation.apply o ea m s).pc = s.pc := by
  obtain ⟨-, -, -, hpc⟩ := apply_inert o ea m s
  exact hpc

section PcAfterStep

variable {s : State}

theorem step_pc_of_unmapped (h : decodeTable core14 (s.read s.pc) = none) :
    (engineCall core14 s).after.pc = s.pc + 1 :=
  congrArg (fun c => c.after.pc) (engineCall_unmapped (T := core14) (Option.map_eq_none_iff.mp h))

/-- A mode other than REL: past the opcode and the operand bytes (R208). -/
theorem step_pc_of_operand {o : Operation} {m : Mode} (h : decodeTable core14 (s.read s.pc) = some (o, m))
    (hm : m ≠ .rel) : (engineCall core14 s).after.pc = s.pc + 1 + BitVec.ofNat 16 m.operandBytes := by
  obtain ⟨r, hl, -, rfl⟩ := exists_row_of_decodeTable_core14 h
  rw [engineCall_alu (T := core14) hl hm]
  simp only [Call.finish_after, State.respond_pc, apply_pc, setPc_resolve_pc hm]
  rfl

/-- A branch: to its target or past its displacement (R208). -/
theorem step_pc_of_branch {o : Operation} (h : decodeTable core14 (s.read s.pc) = some (o, .rel)) :
    (engineCall core14 s).after.pc =
      if Operation.predicate o s.p then s.pc + 2 + sext16 (s.read (s.pc + 1)) else s.pc + 2 := by
  obtain ⟨r, hl, rfl, hm⟩ := exists_row_of_decodeTable_core14 h
  have htwo : s.pc + 1 + 1 = s.pc + 2 := BitVec.add_assoc s.pc 1 1
  rw [engineCall_branch (T := core14) hl hm, ← htwo]
  split <;> rfl

end PcAfterStep

/-- Settles O38, row by row of R208's table. -/
theorem pcAfterEachKindOfStep : Obligations.PcAfterEachKindOfStep := by
  unfold Obligations.PcAfterEachKindOfStep
  refine fun s => ⟨_, step_eq_engineCall s, ?_⟩
  split
  next h => exact step_pc_of_unmapped h
  next h => exact (step_pc_of_operand h Mode.noConfusion).trans (BitVec.add_zero _)
  next o h =>
    rw [step_pc_of_branch h, branchTaken_iff_predicate]
    exact ⟨fun htaken => if_pos htaken, fun hnot => if_neg hnot⟩
  next o m _ hrel h => exact step_pc_of_operand h hrel

/-! ### Every reachable state -/

/-- Loading an image changes only the memory, and keeps it canonical (R267). -/
theorem exists_load_eq (image : List (Addr × Byte)) (s : State) :
    ∃ mem, s.load image = { s with mem := mem } ∧ (s.mem.wf = true → mem.wf = true) := by
  induction image generalizing s with
  | nil => exact ⟨s.mem, rfl, id⟩
  | cons w rest ih =>
    obtain ⟨mem, hload, hwf⟩ := ih (s.write w.1 w.2)
    exact ⟨mem, hload, fun hs => hwf (Memory.write_wf hs w.1 w.2)⟩

/-- What holds of every launch state and is kept by every step holds of every reachable state. -/
theorem invariant_of_reachable {P : State → Prop} (hlaunch : ∀ image, P (launch image))
    (hstep : ∀ s t, P s → step s = .next t → P t) {s : State} (h : Reachable s) : P s := by
  induction h with
  | launch image => exact hlaunch image
  | step _ ht ih => exact hstep _ _ ih ht

/-- Settles O47: both invariants hold at reset, outlast a load, and are kept by every step. -/
theorem reachableStatesKeepResetRegistersAndFlags : Obligations.ReachableStatesKeepResetRegistersAndFlags := by
  unfold Obligations.ReachableStatesKeepResetRegistersAndFlags
  refine fun s => invariant_of_reachable (P := fun s => s.InertAtReset ∧ s.Canonical) (fun image => ?_)
    fun s t hs ht => ?_
  · obtain ⟨hcanonical, hinert⟩ := resetIsCanonicalAndInert
    obtain ⟨mem, hload, hwf⟩ := exists_load_eq image State.reset
    rw [launch, hload]
    exact ⟨hinert, hwf hcanonical⟩
  · obtain ⟨hinert, hcanonical⟩ := hs
    exact ⟨inertAtReset_step hinert ht, stepKeepsMemoryCanonical s t hcanonical ht⟩

end Sys2Proof.Machine

/-! ## Proofs: the accesses of a call (20_memory.md R74, R75)

An access list is the resolver's reads and then the data accesses; the one write in it is ASL's, at the
effective address. What a call depends on is the registers and the bytes at the addresses in that list. -/

namespace Sys2Proof.Machine

open Sys2Proof.Claims

/-! ### The one write -/

section OneWrite

variable (o : Operation) (ea : Option Addr) (T : Tables) (s : State)

/-- An operation other than ASL leaves memory (R67). -/
theorem apply_mem_of_ne_asl (ho : o ≠ .asl) (m : Byte) : (Operation.apply o ea m s).mem = s.mem :=
  (apply_mem o ea m s).resolve_right fun ⟨_, hasl, _⟩ => ho hasl

/-- The data accesses of an operation are reads and leave memory, or are ASL's read and write of its effective
address (R67). -/
theorem dataAccesses_reads_or_asl (w : Addr) :
    (∃ reads : List Addr, dataAccesses o ea (operandAt ea s) = reads.map Access.read ∧
      (Operation.apply o ea (operandAt ea s) (s.setPc w)).mem = s.mem) ∨
    ∃ addr, o = .asl ∧ ea = some addr ∧
      dataAccesses o ea (operandAt ea s) = [.read addr, .write addr (aslResult (s.read addr))] ∧
      (Operation.apply o ea (operandAt ea s) (s.setPc w)).mem =
        s.mem.write addr (aslResult (s.read addr)) := by
  cases ea with
  | none =>
    refine .inl ⟨[], rfl, ?_⟩
    obtain hmem | ⟨addr, -, hnone, -⟩ := apply_mem o none (operandAt none s) (s.setPc w)
    · exact hmem
    · cases hnone
  | some addr =>
    by_cases ho : o = .asl
    · subst ho
      exact .inr ⟨addr, rfl, rfl, rfl, rfl⟩
    · refine .inl ⟨[addr], ?_, apply_mem_of_ne_asl o (some addr) (s.setPc w) ho _⟩
      rw [dataAccesses, if_neg ho]
      rfl

/-- A call only reads, or it ends with ASL's read and write at its effective address (R74). -/
theorem engineCall_reads_or_asl :
    ∃ reads : List Addr,
      ((engineCall T s).accesses = reads.map Access.read ∧ (engineCall T s).after.mem = s.mem) ∨
      ∃ m addr, decodeTable T (s.read s.pc) = some (.asl, m) ∧ (resolve m (s.advance 1)).ea = some addr ∧
        (engineCall T s).accesses =
          reads.map Access.read ++ [.read addr, .write addr (aslResult (s.read addr))] ∧
        (engineCall T s).after.mem = s.mem.write addr (aslResult (s.read addr)) := by
  cases hl : T.rows.lookup (s.read s.pc) with
  | none =>
    rw [engineCall_unmapped hl]
    exact ⟨[s.pc], .inl ⟨rfl, rfl⟩⟩
  | some row =>
    by_cases hm : row.mode = .rel
    · rw [engineCall_branch hl hm]
      split
      · exact ⟨[s.pc, s.pc + 1], .inl ⟨rfl, rfl⟩⟩
      · exact ⟨[s.pc], .inl ⟨rfl, rfl⟩⟩
    · simp only [engineCall_alu hl hm, Call.finish_accesses, Call.finish_after, State.respond_mem]
      obtain ⟨reads, hdata, hmem⟩ | ⟨addr, ho, hea, hdata, hmem⟩ := dataAccesses_reads_or_asl row.operation
          (resolve row.mode (s.advance 1)).ea (s.advance 1) (resolve row.mode (s.advance 1)).pc
      · refine ⟨s.pc :: ((resolve row.mode (s.advance 1)).reads ++ reads), .inl ⟨?_, hmem⟩⟩
        rw [hdata, List.map_cons, List.map_append]
      · refine ⟨s.pc :: (resolve row.mode (s.advance 1)).reads, .inr ⟨row.mode, addr, ?_, hea, ?_, hmem⟩⟩
        · rw [decodeTable, hl, ← ho]
          rfl
        · rw [hdata]
          rfl

end OneWrite

/-- Settles O50, with ASL's two accesses as the last ones. -/
theorem atMostOneWriteAndItIsLast : Obligations.AtMostOneWriteAndItIsLast := by
  unfold Obligations.AtMostOneWriteAndItIsLast
  intro T s
  obtain ⟨reads, ⟨haccesses, hmem⟩ | ⟨m, addr, -, -, haccesses, hmem⟩⟩ := engineCall_reads_or_asl T s
  · exact ⟨reads, .inl ⟨haccesses, fun b => congrArg (Memory.read · b) hmem⟩⟩
  · refine ⟨reads, .inr ⟨addr, _, haccesses, ?_, fun b hb => ?_⟩⟩
    · rw [State.read, hmem, Memory.read_write_same]
    · rw [State.read, hmem, Memory.read_write_other _ _ hb.symm, State.read]

/-- Settles O43: of the two kinds of call only ASL's changes a byte, and only the one it writes. -/
theorem onlyMemoryFormsOfAslWriteMemory : Obligations.OnlyMemoryFormsOfAslWriteMemory := by
  unfold Obligations.OnlyMemoryFormsOfAslWriteMemory
  intro s t b ht hne
  obtain ⟨reads, ⟨-, hmem⟩ | ⟨m, addr, hrow, hea, -, hmem⟩⟩ := engineCall_reads_or_asl core14 s
  · rw [after_eq_of_step ht] at hmem
    exact absurd (congrArg (Memory.read · b) hmem) hne
  · rw [after_eq_of_step ht] at hmem
    have hb : addr = b := by
      by_contra hother
      exact hne (by rw [State.read, hmem, Memory.read_write_other _ _ hother, State.read])
    refine ⟨m, hrow, ?_, hb ▸ hea⟩
    rintro rfl
    cases hea

/-- A row of ASL with an effective address writes the shifted byte there (R128). -/
theorem step_mem_of_asl {s t : State} {m : Mode} {ea : Addr}
    (hrow : decodeTable core14 (s.read s.pc) = some (.asl, m)) (hea : (resolve m (s.advance 1)).ea = some ea)
    (ht : step s = .next t) : t.mem = s.mem.write ea (aslResult (s.read ea)) := by
  obtain ⟨r, hl, ho, rfl⟩ := exists_row_of_decodeTable_core14 hrow
  have hm : r.mode ≠ .rel := by
    intro hrel
    rw [hrel] at hea
    cases hea
  rw [← after_eq_of_step ht]
  simp only [engineCall_alu (T := core14) hl hm, ho, hea]
  rfl

/-- Settles O42: each byte of the new window is read from the memory that ASL wrote. -/
theorem nextFetchSeesTheByteAslWrote : Obligations.NextFetchSeesTheByteAslWrote := by
  unfold Obligations.NextFetchSeesTheByteAslWrote
  rintro s t o m ea hrow rfl hea ht
  have hshift : aslResult (s.read ea) = BitVec.ofNat 8 (2 * (s.read ea).toNat) := by
    apply BitVec.eq_of_toNat_eq
    rw [toNat_aslResult, BitVec.toNat_ofNat]
  have hread : ∀ addr, t.read addr =
      if addr = ea then BitVec.ofNat 8 (2 * (s.read ea).toNat) else s.read addr := fun addr => by
    calc t.read addr
      _ = (s.write ea (aslResult (s.read ea))).read addr :=
        congrArg (Memory.read · addr) (step_mem_of_asl hrow hea ht)
      _ = if addr = ea then aslResult (s.read ea) else s.read addr :=
        (State.read_write s ea addr _).trans (if_congr eq_comm rfl rfl)
      _ = _ := by rw [hshift]
  simp only [fetchWindow, hread, List.map_cons, List.map_nil]

/-! ### What a call depends on -/

/-- States with equal registers differ in memory and returned value only. -/
theorem exists_eq_of_sameRegisters {s s' : State} (h : SameRegisters s s') :
    ∃ mem r, s' = { s with mem := mem, response := r } := by
  obtain ⟨hpc, hsp, ha, hx, hy, hp⟩ := h
  exact ⟨s'.mem, s'.response, State.ext hpc hsp ha hx hy hp rfl rfl⟩

section Agree

variable {s s' : State} (hregs : SameRegisters s s')

include hregs

theorem sameRegisters_setPc (w : Addr) : SameRegisters (s.setPc w) (s'.setPc w) := by
  obtain ⟨mem, r, rfl⟩ := exists_eq_of_sameRegisters hregs
  exact ⟨rfl, rfl, rfl, rfl, rfl, rfl⟩

theorem sameRegisters_advance (n : Nat) : SameRegisters (s.advance n) (s'.advance n) := by
  obtain ⟨mem, r, rfl⟩ := exists_eq_of_sameRegisters hregs
  exact ⟨rfl, rfl, rfl, rfl, rfl, rfl⟩

/-- The resolver depends on the registers and the bytes it reads (R150 to R161). -/
theorem resolve_congr {m : Mode} (hread : ∀ addr ∈ (resolve m s).reads, s'.read addr = s.read addr) :
    resolve m s' = resolve m s := by
  obtain ⟨hpc, -, -, hx, hy, -⟩ := hregs
  cases m with
  | acc | imm => simp only [resolve, hpc]
  | rel | zp | zpx =>
    have hbyte := hread s.pc (by simp [resolve])
    simp only [resolve, eaZpx, hpc, hx, hbyte]
  | abs | absx | absy =>
    have hlow := hread s.pc (by simp [resolve])
    have hhigh := hread (s.pc + 1) (by simp [resolve])
    simp only [resolve, operandWord, eaAbsx, eaAbsy, hpc, hx, hy, hlow, hhigh]
  | indx =>
    have hbyte := hread s.pc (by simp [resolve])
    have hlow := hread (zext16 (s.read s.pc + s.x)) (by simp [resolve])
    have hhigh := hread (zext16 (s.read s.pc + s.x + 1)) (by simp [resolve])
    simp only [resolve, eaIndx, zeroPagePointer, hpc, hx, hbyte, hlow, hhigh]
  | indy =>
    have hbyte := hread s.pc (by simp [resolve])
    have hlow := hread (zext16 (s.read s.pc)) (by simp [resolve])
    have hhigh := hread (zext16 (s.read s.pc + 1)) (by simp [resolve])
    simp only [resolve, eaIndy, zeroPagePointer, hpc, hy, hbyte, hlow, hhigh]

/-- So does the operand (R122). -/
theorem operandAt_congr {ea : Option Addr} (hread : ∀ addr, ea = some addr → s'.read addr = s.read addr) :
    operandAt ea s' = operandAt ea s := by
  obtain ⟨-, -, ha, -, -, -⟩ := hregs
  cases ea with
  | none => exact ha
  | some addr => exact hread addr rfl

/-- An operation computes registers from registers, the operand, and the byte that ASL shifts (R122). -/
theorem apply_congr {ea : Option Addr} (hread : ∀ addr, ea = some addr → s'.read addr = s.read addr)
    (o : Operation) (m : Byte) : SameRegisters (Operation.apply o ea m s) (Operation.apply o ea m s') := by
  obtain ⟨mem, r, rfl⟩ := exists_eq_of_sameRegisters hregs
  cases o with
  | asl =>
    cases ea with
    | none => exact ⟨rfl, rfl, rfl, rfl, rfl, rfl⟩
    | some addr => exact ⟨rfl, rfl, rfl, rfl, rfl, congrArg (aslFlags · s.p) (hread addr rfl)⟩
  | adc | and | cmp | bit | lda | bcc | bcs | beq | bne | bmi | bpl | bvc | bvs =>
    exact ⟨rfl, rfl, rfl, rfl, rfl, rfl⟩

end Agree

/-- Settles O51: opcode, operand bytes and operand are read alike, in the order in which the call needs them. -/
theorem callDependsOnlyOnTheBytesItReads : Obligations.CallDependsOnlyOnTheBytesItReads := by
  unfold Obligations.CallDependsOnlyOnTheBytesItReads
  intro T s s' hregs hread
  have hadvance := sameRegisters_advance hregs 1
  obtain ⟨hpc, -, -, -, -, hp⟩ := id hregs
  have hop : s'.read s'.pc = s.read s.pc := by
    obtain ⟨o, ea, m, w, r, later, h⟩ := exists_engineCall_eq_finish T s
    rw [hpc]
    exact hread s.pc (h ▸ List.mem_cons_self)
  cases hl : T.rows.lookup (s.read s.pc) with
  | none =>
    rw [engineCall_unmapped hl, engineCall_unmapped (hop ▸ hl), hop, hpc]
    exact ⟨rfl, rfl, hadvance⟩
  | some row =>
    have hl' : T.rows.lookup (s'.read s'.pc) = some row := hop ▸ hl
    by_cases hm : row.mode = .rel
    · rw [engineCall_branch hl hm] at hread ⊢
      rw [engineCall_branch hl' hm, hp, hpc]
      split
      next htaken =>
        rw [if_pos htaken] at hread
        rw [hread (s.pc + 1) (by simp)]
        exact ⟨rfl, rfl, sameRegisters_setPc hadvance _⟩
      · exact ⟨rfl, rfl, sameRegisters_advance hadvance 1⟩
    · simp only [engineCall_alu hl hm, Call.finish_accesses] at hread
      have hresolve : resolve row.mode (s'.advance 1) = resolve row.mode (s.advance 1) :=
        resolve_congr hadvance fun addr haddr => hread addr (by simp [haddr])
      have hea : ∀ addr, (resolve row.mode (s.advance 1)).ea = some addr →
          (s'.advance 1).read addr = (s.advance 1).read addr :=
        fun addr haddr => hread addr (by simp [haddr, dataAccesses])
      simp only [engineCall_alu hl hm, engineCall_alu hl' hm, hresolve, operandAt_congr hadvance hea, hpc]
      have hmoved := sameRegisters_setPc hadvance (resolve row.mode (s.advance 1)).pc
      exact ⟨rfl, rfl, apply_congr hmoved hea row.operation _⟩

/-- Settles O49: at each byte the two tables have rows with one operation and one mode, or none. -/
theorem cycleTableChangesNoState : Obligations.CycleTableChangesNoState := by
  unfold Obligations.CycleTableChangesNoState
  intro T T' s hsame
  have hop := hsame (s.read s.pc)
  cases hl : T.rows.lookup (s.read s.pc) with
  | none =>
    rw [decodeTable, hl] at hop
    have hl' : T'.rows.lookup (s.read s.pc) = none := Option.map_eq_none_iff.mp hop.symm
    rw [engineCall_unmapped hl, engineCall_unmapped hl']
    exact ⟨⟨rfl, rfl, rfl, rfl, rfl, rfl, rfl⟩, rfl⟩
  | some row =>
    rw [decodeTable, hl] at hop
    obtain ⟨row', hl', hpair⟩ := Option.map_eq_some_iff.mp hop.symm
    obtain ⟨ho, hmode⟩ := Prod.mk.inj hpair
    by_cases hm : row.mode = .rel
    · rw [engineCall_branch hl hm, engineCall_branch hl' (hmode.trans hm), ho]
      split
      · exact ⟨⟨rfl, rfl, rfl, rfl, rfl, rfl, rfl⟩, rfl⟩
      · exact ⟨⟨rfl, rfl, rfl, rfl, rfl, rfl, rfl⟩, rfl⟩
    · rw [engineCall_alu hl hm, engineCall_alu hl' (hmode ▸ hm), ho, hmode]
      exact ⟨⟨rfl, rfl, rfl, rfl, rfl, rfl, rfl⟩, rfl⟩

end Sys2Proof.Machine

/-! ## Proofs: every form of the ALU operations and of the branches (40_alu_operations.md, 42_branches.md)

The forms of an operation differ in the operand and the number of operand bytes only, so each `…Form` is proved
once, of whatever instruction `exec` runs as that operation. -/

namespace Sys2Proof.Machine

open Sys2Proof.Claims

/-! ### Bits, flags and frames -/

/-- The sign bit of a byte over its unsigned value. -/
theorem msb_eq_decide_byte (b : Byte) : b.msb = decide (128 ≤ b.toNat) := BitVec.msb_eq_decide b

/-- Bit 7 is the sign bit (R121). -/
theorem getLsbD_seven_iff (b : Byte) : b.getLsbD 7 = true ↔ 128 ≤ b.toNat := by
  rw [← BitVec.msb_eq_getLsbD_last b, msb_eq_decide_byte, decide_eq_true_eq]

/-- The mask 0x80 singles out the sign bit. -/
theorem and_0x80_ne_zero (b : Byte) : ((b &&& 0x80) != 0) = b.msb := by
  have htwo : (0x80 : Byte) = BitVec.twoPow 8 7 := rfl
  rw [htwo, BitVec.and_twoPow, BitVec.msb_eq_getLsbD_last]
  cases b.getLsbD 7 <;> rfl

/-- Z and N as ZN writes them (R121) are those of the byte. -/
theorem znOf_of_flags {r : Byte} {t : State} (hz : t.p.z = (r == 0)) (hn : t.p.n = r.getLsbD 7) : ZnOf r t := by
  refine ⟨?_, hn ▸ getLsbD_seven_iff r⟩
  rw [hz, beq_iff_eq, ← BitVec.toNat_inj]
  rfl

/-- A list of writes leaves the flags it does not name. -/
theorem flagsSameBut_of_putAll {s t : State} {fs : List Flag} (ws : List (Flag × Bool))
    (hfs : ws.map Prod.fst = fs) (h : t.p = s.p.putAll ws) : FlagsSameBut fs s t := by
  subst hfs
  exact fun f hf => h ▸ Status.get_putAll_other s.p hf

/-- Moving past `n` operand bytes wraps at the top of the address space (R29). -/
theorem toNat_add_ofNat (w : Addr) (n : Nat) : (w + BitVec.ofNat 16 n).toNat = (w.toNat + n) % 65536 := by
  rw [BitVec.toNat_add, BitVec.toNat_ofNat]
  exact Nat.add_mod_mod _ _ _

/-! ### ADC -/

theorem toNat_adcResult (a m : Byte) (carryIn : Bool) :
    (adcResult a m carryIn).toNat = (a.toNat + m.toNat + carryIn.toNat) % 256 :=
  BitVec.toNat_ofNat _ _

theorem adcFlags_c_iff (a m : Byte) (p : Status) :
    (adcFlags a m p).c = true ↔ 255 < a.toNat + m.toNat + p.c.toNat := decide_eq_true_iff

/-- V by the signs: the operands' agree and the result's differs (R123). -/
theorem adcFlags_v_iff (a m : Byte) (p : Status) :
    (adcFlags a m p).v = true ↔ a.msb = m.msb ∧ (adcResult a m p.c).msb ≠ a.msb := by
  have hv : (adcFlags a m p).v = ((m ^^^ adcResult a m p.c) &&& (a ^^^ adcResult a m p.c)).msb :=
    and_0x80_ne_zero _
  rw [hv, BitVec.msb_and, BitVec.msb_xor, BitVec.msb_xor]
  cases a.msb <;> cases m.msb <;> cases (adcResult a m p.c).msb <;> decide

/-! ### CMP and BIT -/

/-- N of CMP: bit 7 of the difference modulo 256 (R129). -/
theorem cmpFlags_n_iff (a m : Byte) (p : Status) :
    (cmpFlags a m p).n = true ↔ 128 ≤ (a.toNat + 256 - m.toNat) % 256 := by
  have hn : (cmpFlags a m p).n = (a - m).getLsbD 7 := rfl
  have hm := m.isLt
  rw [hn, getLsbD_seven_iff, BitVec.toNat_sub]
  omega

/-- Z of BIT: no common bit (R130). -/
theorem bitFlags_z_iff (a m : Byte) (p : Status) :
    (bitFlags a m p).z = true ↔ ∀ k < 8, ¬ (a.getLsbD k = true ∧ m.getLsbD k = true) := by
  have hz : (bitFlags a m p).z = ((a &&& m) == 0) := rfl
  have hbit : ∀ k, (a &&& m).getLsbD k = false ↔ ¬ (a.getLsbD k = true ∧ m.getLsbD k = true) := fun k => by
    rw [BitVec.getLsbD_and, ← Bool.and_eq_true, Bool.not_eq_true]
  rw [hz, beq_iff_eq]
  constructor
  · intro h k _
    rw [← hbit, h]
    exact BitVec.getLsbD_zero
  · intro h
    refine BitVec.eq_of_getLsbD_eq fun k hk => ?_
    rw [(hbit k).mpr (h k hk)]
    exact BitVec.getLsbD_zero.symm

/-- V of BIT: bit 6 of the operand (R130). -/
theorem bitFlags_v_iff (a m : Byte) (p : Status) : (bitFlags a m p).v = true ↔ 64 ≤ m.toNat % 128 := by
  have hv : (bitFlags a m p).v = m.toNat.testBit 6 := rfl
  rw [hv, Nat.testBit_eq_decide_div_mod_eq, decide_eq_true_eq]
  omega

/-! ### ASL -/

/-- C of ASL: bit 7 of the input (R127). -/
theorem aslFlags_c_iff (m : Byte) (p : Status) : (aslFlags m p).c = true ↔ 128 ≤ m.toNat := by
  have hc : (aslFlags m p).c = m.msb := and_0x80_ne_zero m
  rw [hc, BitVec.msb_eq_getLsbD_last]
  exact getLsbD_seven_iff m

/-- A state whose flags ASL has written of the byte `m`, and its result (R127). -/
theorem shiftLeft_of_aslFlags {m r : Byte} {s t : State} (hr : r = aslResult m) (hp : t.p = aslFlags m s.p) :
    ShiftLeft m r s t := by
  subst hr
  refine ⟨toNat_aslResult m, ?_, znOf_of_flags ?_ ?_, flagsSameBut_of_putAll (aslWrites m) rfl hp⟩
  · rw [hp, aslFlags_c_iff]
  · rw [hp]
    rfl
  · rw [hp]
    rfl

/-! ### One lemma per operation -/

section Forms

variable {op : Byte} {i : Instr} {n : Nat} {m : Byte} {s : State}
  (hop : (encode i).head? = some op)

include hop

theorem adcForm (hi : exec i s = finishAlu n (applyAdc m) s) : AdcForm op i n m s :=
  ⟨hop, _, hi, toNat_adcResult s.a m s.p.c, adcFlags_c_iff s.a m s.p, adcFlags_v_iff s.a m s.p,
    znOf_of_flags rfl rfl, flagsSameBut_of_putAll _ rfl (adcFlags_eq_putAll s.a m s.p), toNat_add_ofNat s.pc n,
    ⟨rfl, rfl, rfl, rfl⟩, fun _ => rfl⟩

theorem andForm (hi : exec i s = finishAlu n (applyAnd m) s) : AndForm op i n m s :=
  ⟨hop, _, hi, fun _ _ => BitVec.getLsbD_and, znOf_of_flags rfl rfl,
    flagsSameBut_of_putAll _ rfl (zn_eq_putAll (s.a &&& m) s.p), toNat_add_ofNat s.pc n, ⟨rfl, rfl, rfl, rfl⟩,
    fun _ => rfl⟩

theorem ldaForm (hi : exec i s = finishAlu n (applyLda m) s) : LdaForm op i n m s :=
  ⟨hop, _, hi, rfl, znOf_of_flags rfl rfl, flagsSameBut_of_putAll _ rfl (zn_eq_putAll m s.p),
    toNat_add_ofNat s.pc n, ⟨rfl, rfl, rfl, rfl⟩, fun _ => rfl⟩

theorem cmpForm (hi : exec i s = finishAlu n (applyCmp m) s) : CmpForm op i n m s :=
  ⟨hop, _, hi, decide_eq_true_iff, beq_iff_eq, cmpFlags_n_iff s.a m s.p,
    flagsSameBut_of_putAll _ rfl (cmpFlags_eq_putAll s.a m s.p), rfl, toNat_add_ofNat s.pc n, ⟨rfl, rfl, rfl, rfl⟩,
    fun _ => rfl⟩

theorem bitForm (hi : exec i s = finishAlu n (applyBit m) s) : BitForm op i n m s :=
  ⟨hop, _, hi, bitFlags_z_iff s.a m s.p, bitFlags_v_iff s.a m s.p, getLsbD_seven_iff m,
    flagsSameBut_of_putAll _ rfl (bitFlags_eq_putAll s.a m s.p), rfl, toNat_add_ofNat s.pc n, ⟨rfl, rfl, rfl, rfl⟩,
    fun _ => rfl⟩

theorem aslMemForm {ea : Addr} (hi : exec i s = finishAlu n (applyAslMem ea) s) : AslMemForm op i n ea s :=
  ⟨hop, _, hi, shiftLeft_of_aslFlags (Memory.read_write_same s.mem ea _) rfl, rfl, toNat_add_ofNat s.pc n,
    ⟨rfl, rfl, rfl, rfl⟩, fun _ hb => Memory.read_write_other s.mem _ hb.symm⟩

/-- A branch whose condition is decided by `taken`. -/
theorem branchForm {cond : Bool} {taken : Prop} {d : Byte} (hcond : cond = true ↔ taken)
    (hi : exec i s = branchIf cond d s) : BranchForm op i taken d s := by
  refine ⟨hop, _, hi, fun ht => ?_, fun hnt => ?_, ?_⟩
  · rw [if_pos (hcond.mpr ht)]
    exact toNat_branchTarget s.pc d
  · rw [if_neg (mt hcond.mp hnt)]
    exact toNat_add_one s.pc
  · split
    · exact ⟨rfl, rfl, ⟨rfl, rfl, rfl, rfl⟩, fun _ => rfl⟩
    · exact ⟨rfl, rfl, ⟨rfl, rfl, rfl, rfl⟩, fun _ => rfl⟩

end Forms

/-! ### Every form -/

/-- Settles O21: the eight forms come from `adcForm`. -/
theorem adcAddsWithCarryInEveryForm : Obligations.AdcAddsWithCarryInEveryForm := by
  unfold Obligations.AdcAddsWithCarryInEveryForm
  exact fun s => ⟨fun _ => adcForm rfl rfl, fun _ => adcForm rfl rfl, fun _ => adcForm rfl rfl, fun _ => adcForm rfl rfl,
    fun _ => adcForm rfl rfl, fun _ => adcForm rfl rfl, fun _ => adcForm rfl rfl, fun _ => adcForm rfl rfl⟩

/-- Settles O23: the eight forms come from `andForm`. -/
theorem andMasksTheAccumulatorInEveryForm : Obligations.AndMasksTheAccumulatorInEveryForm := by
  unfold Obligations.AndMasksTheAccumulatorInEveryForm
  exact fun s => ⟨fun _ => andForm rfl rfl, fun _ => andForm rfl rfl, fun _ => andForm rfl rfl, fun _ => andForm rfl rfl,
    fun _ => andForm rfl rfl, fun _ => andForm rfl rfl, fun _ => andForm rfl rfl, fun _ => andForm rfl rfl⟩

/-- Settles O27: the eight forms come from `cmpForm`. -/
theorem cmpSetsOnlyFlagsInEveryForm : Obligations.CmpSetsOnlyFlagsInEveryForm := by
  unfold Obligations.CmpSetsOnlyFlagsInEveryForm
  exact fun s => ⟨fun _ => cmpForm rfl rfl, fun _ => cmpForm rfl rfl, fun _ => cmpForm rfl rfl, fun _ => cmpForm rfl rfl,
    fun _ => cmpForm rfl rfl, fun _ => cmpForm rfl rfl, fun _ => cmpForm rfl rfl, fun _ => cmpForm rfl rfl⟩

/-- Settles O29: the eight forms come from `ldaForm`. -/
theorem ldaLoadsInEveryForm : Obligations.LdaLoadsInEveryForm := by
  unfold Obligations.LdaLoadsInEveryForm
  exact fun s => ⟨fun _ => ldaForm rfl rfl, fun _ => ldaForm rfl rfl, fun _ => ldaForm rfl rfl, fun _ => ldaForm rfl rfl,
    fun _ => ldaForm rfl rfl, fun _ => ldaForm rfl rfl, fun _ => ldaForm rfl rfl, fun _ => ldaForm rfl rfl⟩

/-- Settles O28: both forms come from `bitForm`. -/
theorem bitTestsInBothForms : Obligations.BitTestsInBothForms := by
  unfold Obligations.BitTestsInBothForms
  exact fun s => ⟨fun _ => bitForm rfl rfl, fun _ => bitForm rfl rfl⟩

/-- Settles O26: the four forms come from `aslMemForm`. -/
theorem aslShiftsMemoryInEveryForm : Obligations.AslShiftsMemoryInEveryForm := by
  unfold Obligations.AslShiftsMemoryInEveryForm
  exact fun s => ⟨fun _ => aslMemForm rfl rfl, fun _ => aslMemForm rfl rfl, fun _ => aslMemForm rfl rfl,
    fun _ => aslMemForm rfl rfl⟩

/-- Settles O25: the accumulator form writes `A` and the flags of the shift. -/
theorem aslShiftsTheAccumulator : Obligations.AslShiftsTheAccumulator := by
  unfold Obligations.AslShiftsTheAccumulator
  exact fun s => ⟨rfl, _, rfl, shiftLeft_of_aslFlags rfl rfl, rfl, ⟨rfl, rfl, rfl, rfl⟩, fun _ => rfl⟩

/-- Settles O30: each branch comes from `branchForm`, its flag tested for set or for clear. -/
theorem eachBranchTestsItsFlag : Obligations.EachBranchTestsItsFlag := by
  unfold Obligations.EachBranchTestsItsFlag
  exact fun s d => ⟨branchForm rfl (Bool.not_eq_true' _).to_iff rfl, branchForm rfl Iff.rfl rfl,
    branchForm rfl Iff.rfl rfl, branchForm rfl (Bool.not_eq_true' _).to_iff rfl, branchForm rfl Iff.rfl rfl,
    branchForm rfl (Bool.not_eq_true' _).to_iff rfl, branchForm rfl (Bool.not_eq_true' _).to_iff rfl,
    branchForm rfl Iff.rfl rfl⟩

/-- Settles O22: V by the signs says that the signed sum leaves its range. -/
theorem adcFlagsMeanUnsignedAndSignedOverflow : Obligations.AdcFlagsMeanUnsignedAndSignedOverflow := by
  unfold Obligations.AdcFlagsMeanUnsignedAndSignedOverflow
  refine fun a m p => ⟨toNat_adcResult a m p.c, adcFlags_c_iff a m p, ?_⟩
  have hr := toNat_adcResult a m p.c
  have ha := a.isLt
  have hm := m.isLt
  have hc := p.c.toNat_le
  rw [adcFlags_v_iff, msb_eq_decide_byte a, msb_eq_decide_byte m, msb_eq_decide_byte (adcResult a m p.c),
    decide_eq_decide, ne_eq, decide_eq_decide, hr, toInt_byte, toInt_byte]
  omega

/-- Settles O24: masking twice with one byte is masking once, and so are Z and N of the result. -/
theorem andIsIdempotent : Obligations.AndIsIdempotent := by
  unfold Obligations.AndIsIdempotent
  intro m s
  have hmask : s.a &&& m &&& m = s.a &&& m := by rw [BitVec.and_assoc, BitVec.and_self]
  rw [applyAnd_eq, applyAnd_eq]
  simp only [hmask]
  rfl

end Sys2Proof.Machine

/-! ## Proofs: the memory modes, the packed byte and canonical memories (41_addressing_modes.md, 10_state.md) -/

namespace Sys2Proof.Machine

open Sys2Proof.Claims

/-! ### The memory modes -/

section Modes

variable (w : Addr) (b c : Byte)

/-- A byte as an address, written as a number (R10). -/
theorem zext16_eq_ofNat : zext16 b = BitVec.ofNat 16 b.toNat := by
  apply BitVec.eq_of_toNat_eq
  have hb := b.isLt
  rw [toNat_zext16, BitVec.toNat_ofNat]
  omega

/-- An index in the zero page is added modulo 256 (R156). -/
theorem toNat_zext16_add : (zext16 (b + c)).toNat = (b.toNat + c.toNat) % 256 := by
  rw [toNat_zext16, BitVec.toNat_add]

/-- An index on an address is added modulo 65536 (R158). -/
theorem toNat_add_zext16 : (w + zext16 b).toNat = (w.toNat + b.toNat) % 65536 := by
  rw [BitVec.toNat_add, toNat_zext16]

/-- A zero-page pointer, over the number of its address: both bytes wrap in the page (R160). -/
theorem toNat_zeroPagePointer (s : State) (z : Byte) :
    (zeroPagePointer s z).toNat =
      (s.read (BitVec.ofNat 16 ((z.toNat + 1) % 256))).toNat * 256 +
        (s.read (BitVec.ofNat 16 z.toNat)).toNat := by
  rw [zeroPagePointer, toNat_joinBytes, zext16_eq_ofNat z, zext16_eq_ofNat (z + 1)]
  rfl

end Modes

/-- Settles O17: the resolver's ZP and ZPX, over unsigned values. -/
theorem zeroPageModes : Obligations.ZeroPageModes := by
  unfold Obligations.ZeroPageModes
  exact fun s => ⟨_, _, rfl, toNat_zext16 _, toNat_add_one s.pc, rfl, toNat_zext16_add _ _, toNat_add_one s.pc⟩

/-- Settles O18: the resolver's ABS, ABSX and ABSY, over unsigned values. -/
theorem absoluteModes : Obligations.AbsoluteModes := by
  unfold Obligations.AbsoluteModes
  exact fun s => ⟨_, _, _, rfl, toNat_joinBytes _ _, rfl, toNat_add_zext16 _ _, rfl, toNat_add_zext16 _ _,
    toNat_add_ofNat s.pc 2, rfl, rfl⟩

/-- Settles O19: the index is added to the pointer's address in INDX and to the pointer in INDY. -/
theorem indirectModes : Obligations.IndirectModes := by
  unfold Obligations.IndirectModes
  refine fun s => ⟨_, _, rfl, ?_, rfl, ?_, toNat_add_one s.pc, toNat_add_one s.pc⟩
  · rw [eaIndx, toNat_zeroPagePointer, BitVec.toNat_add, Nat.mod_add_mod]
  · rw [eaIndy, toNat_add_zext16, toNat_zeroPagePointer]

/-! ### The packed status byte -/

/-- Settles O5: eight digits of 0 or 1 by their weights stay below 256. -/
theorem statusPacksByWeight : Obligations.StatusPacksByWeight := by
  unfold Obligations.StatusPacksByWeight
  refine ⟨fun p => ?_, Status.get_fromByte⟩
  have hn := p.n.toNat_le
  have hv := p.v.toNat_le
  have hu := p.u.toNat_le
  have hb := p.b.toNat_le
  have hd := p.d.toNat_le
  have hi := p.i.toNat_le
  have hz := p.z.toNat_le
  have hc := p.c.toNat_le
  rw [Status.asByte, BitVec.toNat_ofNat]
  omega

/-! ### Canonical memories -/

/-- A canonical memory reads a listed cell's byte at its key: no other cell has the key. -/
theorem Memory.readKey_of_mem {m : Memory} (hm : List.Pairwise (fun c d => c.1 < d.1) m) {c : Host.Cell}
    (hc : c ∈ m) : m.readKey c.1 = c.2 := by
  induction m with
  | nil => cases hc
  | cons d m ih =>
    obtain ⟨hd, hm⟩ := List.pairwise_cons.mp hm
    rw [Memory.readKey_cons]
    rcases List.mem_cons.mp hc with rfl | hc
    · exact if_pos rfl
    · rw [if_neg (hd c hc).ne, ih hm hc]

/-- A key that reads as no unlisted address does is listed, with the byte it reads. -/
theorem Memory.mem_of_readKey {m : Memory} (hm : List.Pairwise (fun c d => c.1 < d.1) m) {k : Nat}
    (hk : m.readKey k ≠ Memory.unlisted) : (k, m.readKey k) ∈ m := by
  by_contra hnot
  refine hk (Memory.readKey_absent fun c hc hkey => hnot ?_)
  subst hkey
  rw [Memory.readKey_of_mem hm hc]
  exact hc

/-- What one canonical memory lists, another that reads like it lists too. -/
theorem Memory.subset_of_read_eq {m m' : Memory} (hm : m.wf = true) (hm' : m'.wf = true)
    (h : ∀ addr : Addr, m.read addr = m'.read addr) : m ⊆ m' := by
  obtain ⟨hpair, hcells⟩ := (Memory.wf_iff m).mp hm
  obtain ⟨hpair', -⟩ := (Memory.wf_iff m').mp hm'
  intro c hc
  obtain ⟨hkey, hbyte⟩ := hcells c hc
  have hread : m'.readKey c.1 = c.2 := by
    have haddr : m.readKey (BitVec.ofNat 16 c.1).toNat = m'.readKey (BitVec.ofNat 16 c.1).toNat := h _
    rw [BitVec.toNat_ofNat, Nat.mod_eq_of_lt hkey] at haddr
    rw [← haddr, Memory.readKey_of_mem hpair hc]
  have hmem := Memory.mem_of_readKey hpair' (hread ▸ hbyte)
  rwa [hread] at hmem

/-- Settles O7: both lists hold the same cells, and a strictly rising list is determined by its elements. -/
theorem canonicalMemoriesThatReadAlikeAreEqual : Obligations.CanonicalMemoriesThatReadAlikeAreEqual := by
  unfold Obligations.CanonicalMemoriesThatReadAlikeAreEqual
  intro m m' hm hm' h
  obtain ⟨hpair, -⟩ := (Memory.wf_iff m).mp hm
  obtain ⟨hpair', -⟩ := (Memory.wf_iff m').mp hm'
  have hmem : ∀ c, c ∈ m ↔ c ∈ m' := fun c =>
    ⟨fun hc => Memory.subset_of_read_eq hm hm' h hc,
      fun hc => Memory.subset_of_read_eq hm' hm (fun addr => (h addr).symm) hc⟩
  exact hpair.eq_of_mem_iff hpair' hmem

end Sys2Proof.Machine

/-! ## Proofs: the host's side (43_fetch_decode_execute.md R209, 70_reset_and_hazards.md, 30_encoding.md R100)

Loading is a fold of writes, and a step always leaves a returned value, so a core that has returned none is a
launch state: on these two facts rest the sessions and the limits on host writes. -/

namespace Sys2Proof.Machine

open Sys2Proof.Claims

/-! ### Loading -/

theorem State.load_append (image image' : List (Addr × Byte)) (s : State) :
    s.load (image ++ image') = (s.load image).load image' := by
  induction image generalizing s with
  | nil => rfl
  | cons w rest ih => exact ih (s.write w.1 w.2)

/-- Loading `f` at the listed addresses makes exactly those read as `f`. -/
theorem State.read_load_map (f : Addr → Byte) (addrs : List Addr) (s : State) (addr : Addr) :
    (s.load (addrs.map fun b => (b, f b))).read addr = if addr ∈ addrs then f addr else s.read addr := by
  induction addrs generalizing s with
  | nil => rfl
  | cons b rest ih =>
    have hload : (s.load ((b :: rest).map fun b => (b, f b))).read addr =
        if addr ∈ rest then f addr else (s.write b (f b)).read addr := ih (s.write b (f b))
    rw [hload, State.read_write]
    by_cases hb : b = addr
    · subst hb
      simp
    · simp [hb, Ne.symm hb]

/-- Every address, once. -/
def allAddresses : List Addr := (List.range (2 ^ 16)).map (BitVec.ofNat 16)

theorem mem_allAddresses (addr : Addr) : addr ∈ allAddresses :=
  List.mem_map.mpr ⟨addr.toNat, List.mem_range.mpr addr.isLt, by simp⟩

/-- Settles O52: the host writes the chosen byte at every address. -/
theorem launchStateHasAnyImageTheHostChooses : Obligations.LaunchStateHasAnyImageTheHostChooses := by
  unfold Obligations.LaunchStateHasAnyImageTheHostChooses
  refine ⟨fun image => ?_, fun f => ⟨allAddresses.map fun b => (b, f b), fun addr => ?_⟩⟩
  · obtain ⟨mem, hload, -⟩ := exists_load_eq image State.reset
    rw [launch, hload]
    exact ⟨rfl, rfl, rfl, rfl, rfl, rfl⟩
  · rw [launch, State.read_load_map, if_pos (mem_allAddresses addr)]

/-! ### Host writes and sessions -/

/-- Loading returns no value (log entry 8). -/
theorem launch_response (image : List (Addr × Byte)) : (launch image).response = none := by
  obtain ⟨mem, hload, -⟩ := exists_load_eq image State.reset
  rw [launch, hload]
  rfl

/-- A step leaves a returned value (R204). -/
theorem exists_response_of_step {s t : State} (ht : step s = .next t) : ∃ r, t.response = some r :=
  ⟨_, after_eq_of_step ht ▸ engineCall_after_response core14 s⟩

/-- A host write has a meaning exactly while no step call has returned (R268). -/
theorem transact_write (s : State) (addr : Addr) (v : Byte) :
    transact (some s) (.write addr v) = if s.response = none then some (s.write addr v, .done) else none := by
  have hwrite : transact (some s) (.write addr v) =
      if s.response.isNone then some (s.write addr v, .done) else none := rfl
  rw [hwrite]
  cases s.response <;> rfl

/-- A step transaction leaves what `step` answers and replies what it returned (R204, R209). -/
theorem transact_step {s t : State} {v : StepResult} (ht : step s = .next t) (hv : t.response = some v) :
    transact (some s) .step = some (t, .stepped v) := by
  simp only [transact, transactOn, ht, hv, Option.map_some]

theorem transact_step_eq_some {s u : State} {r : Reply} (h : transact (some s) .step = some (u, r)) :
    step s = .next u ∧ ∃ v, u.response = some v ∧ r = .stepped v := by
  have ht := step_eq_engineCall s
  obtain ⟨v, hv⟩ := exists_response_of_step ht
  rw [transact_step ht hv] at h
  cases h
  exact ⟨ht, v, hv, rfl⟩

/-- Settles O53: a launch state has returned no value and a state after a step has. -/
theorem hostWritesOnlyBeforeTheFirstStep : Obligations.HostWritesOnlyBeforeTheFirstStep := by
  unfold Obligations.HostWritesOnlyBeforeTheFirstStep
  refine ⟨fun image addr v => ?_, fun s t addr v ht => ?_, fun s addr f => ⟨rfl, ?_, rfl⟩⟩
  · rw [transact_write, if_pos (launch_response image)]
  · obtain ⟨r, hr⟩ := exists_response_of_step ht
    rw [transact_write, hr, if_neg (Option.some_ne_none r)]
  · rw [Status.getLsbD_asByte]
    rfl

/-- Settles O57, transaction by transaction: a host write is refused once a value has been returned. -/
theorem onlyStepChangesAConstructedCoreOnceItRuns : Obligations.OnlyStepChangesAConstructedCoreOnceItRuns := by
  unfold Obligations.OnlyStepChangesAConstructedCoreOnceItRuns
  refine ⟨rfl, fun t ht => ?_, fun s => rfl, fun s u t r hs h => ?_⟩
  · cases t with
    | construct => exact absurd rfl ht
    | read | write | step | registers | flag => rfl
  · cases t with
    | construct => cases h
    | step => exact ⟨fun hne => absurd rfl hne, fun _ => transact_step_eq_some h⟩
    | write addr v =>
      rw [transact_write, if_neg hs] at h
      cases h
    | read | registers | flag =>
      cases h
      exact ⟨fun _ => rfl, Transaction.noConfusion⟩

/-- A reachable core that has returned no value is a launch state. -/
theorem exists_eq_launch_of_reachable {s : State} (h : Reachable s) (hs : s.response = none) :
    ∃ image, s = launch image := by
  cases h with
  | launch image => exact ⟨image, rfl⟩
  | step _ ht =>
    obtain ⟨r, hr⟩ := exists_response_of_step ht
    cases hr.symm.trans hs

/-- A transaction on a reachable core leaves it reachable: a host write is one more write of the image. -/
theorem reachable_of_transact {s u : State} {t : Transaction} {r : Reply} (hs : Reachable s)
    (h : transact (some s) t = some (u, r)) : Reachable u := by
  cases t with
  | construct => cases h
  | step =>
    obtain ⟨ht, -⟩ := transact_step_eq_some h
    exact .step hs ht
  | write addr v =>
    rw [transact_write] at h
    split at h
    next hnone =>
      cases h
      obtain ⟨image, rfl⟩ := exists_eq_launch_of_reachable hs hnone
      have happend : (launch image).write addr v = launch (image ++ [(addr, v)]) :=
        (State.load_append image [(addr, v)] State.reset).symm
      rw [happend]
      exact .launch _
    · cases h
  | read | registers | flag =>
    cases h
    exact hs

/-- Loading before the first step is a session of host writes. -/
theorem hosted_load (image : List (Addr × Byte)) {s : State} (hs : Hosted s) (hnone : s.response = none) :
    Hosted (s.load image) := by
  induction image generalizing s with
  | nil => exact hs
  | cons w rest ih =>
    exact ih (s := s.write w.1 w.2)
      (.next hs ((transact_write s w.1 w.2).trans (if_pos hnone))) hnone

/-- Settles O58: transactions lead from reachable to reachable states, and loads and steps are transactions. -/
theorem sessionsReachExactlyTheRunsOfLaunchStates : Obligations.SessionsReachExactlyTheRunsOfLaunchStates := by
  unfold Obligations.SessionsReachExactlyTheRunsOfLaunchStates
  refine fun s => ⟨fun h => ?_, fun h => ?_⟩
  · induction h with
    | construct h =>
      cases h
      exact .launch []
    | next _ ht ih => exact reachable_of_transact ih ht
  · induction h with
    | launch image => exact hosted_load image (.construct rfl) rfl
    | step _ ht ih =>
      obtain ⟨v, hv⟩ := exists_response_of_step ht
      exact .next ih (transact_step ht hv)

/-! ### Drivers -/

theorem runStrict_succ {s t : State} (n : Nat) (ht : step s = .next t) :
    runStrict (n + 1) s = if t.failed then t else runStrict n t := by
  rw [runStrict, ht]

theorem runLenient_succ {s t : State} (n : Nat) (ht : step s = .next t) :
    runLenient (n + 1) s = runLenient n t := by
  rw [runLenient, ht]

/-- A run of at least one step stays where it stopped, and goes on where it has not (R272). -/
theorem runStrict_add (m n : Nat) (s : State) :
    runStrict (m + 1 + n) s =
      if (runStrict (m + 1) s).failed then runStrict (m + 1) s else runStrict n (runStrict (m + 1) s) := by
  induction m generalizing s with
  | zero =>
    have hone : runStrict (0 + 1) s = (engineCall core14 s).after :=
      (runStrict_succ 0 (step_eq_engineCall s)).trans (ite_self _)
    rw [hone, Nat.add_right_comm, runStrict_succ _ (step_eq_engineCall s), Nat.zero_add]
  | succ m ih =>
    rw [Nat.add_right_comm, runStrict_succ _ (step_eq_engineCall s), runStrict_succ _ (step_eq_engineCall s)]
    cases hfailed : (engineCall core14 s).after.failed with
    | true => simp only [if_true, hfailed]
    | false => exact ih _

/-- Settles O54: the two cases of the splitting law. -/
theorem runStopsAtTheFirstInvalidOpcode : Obligations.RunStopsAtTheFirstInvalidOpcode := by
  unfold Obligations.RunStopsAtTheFirstInvalidOpcode
  exact fun m n s => ⟨fun h => (runStrict_add m n s).trans (if_neg (Bool.eq_false_iff.mp h)),
    fun h => (runStrict_add m n s).trans (if_pos h)⟩

/-- Settles O55: the step at the byte leaves `pc` advanced, and the value it returns is read by no step. -/
theorem lenientDriverSkipsTheByte : Obligations.LenientDriverSkipsTheByte := by
  unfold Obligations.LenientDriverSkipsTheByte
  intro n s hl
  have hskip : step (takeInvalidOpcode s) = step { s with pc := s.pc + 1 } :=
    step_with_response { s with pc := s.pc + 1 } _
  have hnext := step_eq_engineCall { s with pc := s.pc + 1 }
  rw [runLenient_succ (n + 1) (step_of_unmapped hl), runLenient_succ n (hskip.trans hnext),
    runLenient_succ n hnext]

/-! ### The assembler's displacement -/

/-- Widening keeps the byte (R10). -/
theorem lowByte_sext16 (b : Byte) : lowByte (sext16 b) = b := by
  apply BitVec.eq_of_toNat_eq
  have hsext := toNat_add_sext16 0#16 b
  rw [BitVec.zero_add, toInt_byte] at hsext
  have hb := b.isLt
  have hzero : ((0#16).toNat : Int) = 0 := rfl
  rw [toNat_lowByte]
  omega

/-- The assembler stores `d` exactly where the branch with `d` goes to the target (R100, R154). -/
theorem branchDisplacement_eq_some_iff (a target : Addr) (d : Byte) :
    branchDisplacement a target = some d ↔ branchTarget (a + 1) d = target := by
  have htarget : branchTarget (a + 1) d = sext16 d + (a + 2) :=
    (BitVec.add_comm _ _).trans (congrArg (sext16 d + ·) (BitVec.add_assoc a 1 1))
  rw [htarget, ← eq_sub_iff_add_eq, branchDisplacement]
  constructor
  · intro h
    split at h
    next hfits =>
      cases h
      exact hfits
    · cases h
  · intro h
    simp only [← h, lowByte_sext16, if_true]

/-- Every displacement from -128 to 127 is a byte's. -/
theorem exists_byte_toInt {k : Int} (hlow : -128 ≤ k) (hhigh : k ≤ 127) : ∃ d : Byte, d.toInt = k := by
  refine ⟨BitVec.ofInt 8 k, ?_⟩
  rw [BitVec.toInt_ofInt]
  exact Int.bmod_eq_of_le (by omega) (by omega)

/-- Settles O56: the displacements of the two-byte branch at `a` reach `a + 2 - 128` to `a + 2 + 127`. -/
theorem assemblerDisplacementReachesTheTarget : Obligations.AssemblerDisplacementReachesTheTarget := by
  unfold Obligations.AssemblerDisplacementReachesTheTarget
  refine fun a target => ⟨branchDisplacement_eq_some_iff a target, ?_⟩
  rw [Option.isSome_iff_exists]
  constructor
  · rintro ⟨d, hd⟩
    have htarget := toNat_branchTarget_add_one a d
    rw [(branchDisplacement_eq_some_iff a target d).mp hd] at htarget
    have hd := toInt_byte d
    have hlt := d.isLt
    exact ⟨2 + d.toInt, by omega, by omega, by omega⟩
  · rintro ⟨k, hlow, hhigh, hk⟩
    obtain ⟨d, hd⟩ := exists_byte_toInt (k := k - 2) (by omega) (by omega)
    have htarget := toNat_branchTarget_add_one a d
    refine ⟨d, (branchDisplacement_eq_some_iff a target d).mpr (BitVec.eq_of_toNat_eq ?_)⟩
    omega

end Sys2Proof.Machine
